-- ==== Sys2Proof/Word.lean ====
section
/-!
DEFINITION. The two machine words of the engine: the byte every state access and stream element is
(spec/00_scope.md R11, spec/20_memory.md R43) and the 16-bit command word (spec/30_encoding.md R63).
-/

namespace Sys2Proof

/-- A byte: an unsigned 8-bit value; all arithmetic on bytes is bitwise (R11). -/
abbrev Byte := BitVec 8

/-- The 16-bit command word (R63). -/
abbrev CmdWord := BitVec 16

end Sys2Proof
end

