-- ==== Sys2Proof/Config.lean ====
section
/-!
DEFINITION. What one build of the engine fixes and no command changes: the open parameters `F` and
`SEPARATOR` of spec/00_scope.md R7 and R8 (spec/92_eei_decisions.md, "Open parameters in one place").
A build is named by plain data (`Params`), which the state carries and no step writes, so every
statement about all states holds for every build; log entries 2 and 3.
-/

namespace Sys2Proof.Config

/-- The 200 bytes that cross the permutation port, index 0 first (R46, R47). -/
abbrev Block := Vector Byte 200

/-- An arbitrary external permutation: a total, deterministic function of the 200 bytes and nothing
else (R7, R47).  It has no body, so what is proved of it holds of every such function. -/
opaque externalF : Block → Block

/-- Which permutation unit stands behind the port (R7: "a capability the engine is parameterized
over").  Mark: DESIGN CHOICE, log entry 2. -/
inductive PermUnit where
  /-- Keccak-f[1600] with 24 rounds, the unit interoperability asks for (R7, R46, G4). -/
  | keccakF1600
  /-- Any other unit: the open parameter `F` itself. -/
  | external
  /-- The identity, with which spec/95_test_vectors.md V-X1 to V-B1 are computed. -/
  | identity
  /-- `F_rot(st)[i] = st[(i+1) mod 200]`, with which V-P7 is computed. -/
  | rotate
  deriving DecidableEq, Repr

/-- The open parameters of one build (R7, R8). -/
structure Params where
  /-- Which function `F` is. -/
  perm : PermUnit
  /-- `SEPARATOR`, the bytes of the framework's version string (R8). -/
  separator : List Byte
  deriving DecidableEq, Repr

end Sys2Proof.Config
end

