-- ==== Sys2Proof/Syntax.lean ====
section
/-!
DEFINITION. The commands of the engine: the raw form in which the host issues one on the command port
(spec/30_encoding.md R63: a 16-bit word with its operands and input stream beside it), and `Instr`,
one constructor for each of the 29 rows of spec/opcode_table.json.
-/

namespace Sys2Proof

/-- A command as it stands on the command port: the word of R63 and everything R63 carries beside it.
A field that the command's kind does not use is not read. -/
structure Command where
  /-- The command word. -/
  word : CmdWord
  /-- Which of the engines behind the port the command is addressed to (R9, R35). -/
  engine : Nat
  /-- The `len` operand of OP and INIT: a natural number (R50, decision D26). -/
  len : Nat
  /-- The `sec` operand of INIT: 16 bits (R63). -/
  sec : BitVec 16
  /-- The `src` operand of CLONE. -/
  src : Nat
  /-- The `dst` operand of CLONE. -/
  dst : Nat
  /-- The input stream `din`, index 0 first (R40, R44). -/
  din : List Byte
  deriving DecidableEq, Repr

/-- The operands of an OP whose primitive takes input (R63, R132). -/
structure StreamOp where
  /-- The engine addressed. -/
  engine : Nat
  /-- The continuation marker, bit 8 of the word (R64). -/
  more : Bool
  /-- The `len` operand. -/
  len : Nat
  /-- The input stream. -/
  din : List Byte
  deriving DecidableEq, Repr

/-- The operands of an OP whose primitive takes a count and no input (R132). -/
structure CountOp where
  /-- The engine addressed. -/
  engine : Nat
  /-- The continuation marker, bit 8 of the word (R64). -/
  more : Bool
  /-- The `len` operand: how many bytes to copy, squeeze or clear. -/
  len : Nat
  deriving DecidableEq, Repr

/-- One constructor per row of spec/opcode_table.json.  In the six un-named rows `m` is the M bit,
which the row leaves open (R67). -/
inductive Instr where
  | ad (a : StreamOp)
  | metaAD (a : StreamOp)
  | key (a : StreamOp)
  | metaKEY (a : StreamOp)
  | sendCLR (a : StreamOp)
  | metaSendCLR (a : StreamOp)
  | recvCLR (a : StreamOp)
  | metaRecvCLR (a : StreamOp)
  | sendENC (a : StreamOp)
  | metaSendENC (a : StreamOp)
  | recvENC (a : StreamOp)
  | metaRecvENC (a : StreamOp)
  | sendMAC (a : CountOp)
  | metaSendMAC (a : CountOp)
  | recvMAC (a : StreamOp)
  | metaRecvMAC (a : StreamOp)
  | prf (a : CountOp)
  | metaPRF (a : CountOp)
  | ratchet (a : CountOp)
  | metaRATCHET (a : CountOp)
  | op00 (m : Bool) (a : StreamOp)
  | op01 (m : Bool) (a : StreamOp)
  | op03 (m : Bool) (a : StreamOp)
  | op05 (m : Bool) (a : StreamOp)
  | op08 (m : Bool) (a : StreamOp)
  | op09 (m : Bool) (a : StreamOp)
  | init (engine : Nat) (sec : BitVec 16) (len : Nat) (label : List Byte)
  | clone (src dst : Nat)
  | reset (engine : Nat)
  deriving DecidableEq, Repr

end Sys2Proof
end

