-- ==== Sys2Proof/WellFormed.lean ====
section
/-!
DEFINITION. The static check on a command: the length agreement of spec/20_memory.md R50.  Every other
condition (the security level, the engine numbers, the flags of a continuation) is one the engine
itself checks and answers with a status, so it is no part of being well formed.
-/

namespace Sys2Proof

/-- "For primitives with input, `din` carries exactly `len` bytes" (R50). -/
def StreamOp.lengthsAgree (a : StreamOp) : Bool := a.din.length == a.len

/-- The length agreement of R50 for every command; a command without an input stream has none to
check. -/
def Instr.wellFormed : Instr → Bool
  | .ad a => a.lengthsAgree
  | .metaAD a => a.lengthsAgree
  | .key a => a.lengthsAgree
  | .metaKEY a => a.lengthsAgree
  | .sendCLR a => a.lengthsAgree
  | .metaSendCLR a => a.lengthsAgree
  | .recvCLR a => a.lengthsAgree
  | .metaRecvCLR a => a.lengthsAgree
  | .sendENC a => a.lengthsAgree
  | .metaSendENC a => a.lengthsAgree
  | .recvENC a => a.lengthsAgree
  | .metaRecvENC a => a.lengthsAgree
  | .sendMAC _ => true
  | .metaSendMAC _ => true
  | .recvMAC a => a.lengthsAgree
  | .metaRecvMAC a => a.lengthsAgree
  | .prf _ => true
  | .metaPRF _ => true
  | .ratchet _ => true
  | .metaRATCHET _ => true
  | .op00 _ a => a.lengthsAgree
  | .op01 _ a => a.lengthsAgree
  | .op03 _ a => a.lengthsAgree
  | .op05 _ a => a.lengthsAgree
  | .op08 _ a => a.lengthsAgree
  | .op09 _ a => a.lengthsAgree
  | .init _ _ len label => label.length == len
  | .clone _ _ => true
  | .reset _ => true

end Sys2Proof
end

