-- ==== Sys2Proof/Decode.lean ====
section
/-!
DEFINITION. The decoder and, after it, the encoder of the command word (spec/30_encoding.md R60 to R70).
The decoder is total: a command that no row of the opcode table matches is rejected by name.  Every
rejection is a word that R70 refuses, so the machine answers it with ConfigurationError.
-/

namespace Sys2Proof

/-! ### Fields of the word (R63) -/

/-- Bits [7:0]: the flag byte. -/
def CmdWord.flags (w : CmdWord) : Byte := w.extractLsb' 0 8

/-- Bit [8]: the continuation marker. -/
def CmdWord.more (w : CmdWord) : Bool := w.getLsbD 8

/-- Bits [10:9]: the command kind. -/
def CmdWord.kind (w : CmdWord) : BitVec 2 := w.extractLsb' 9 2

/-- Bits [15:11]: reserved, must be 0. -/
def CmdWord.zero (w : CmdWord) : BitVec 5 := w.extractLsb' 11 5

/-- `RESERVED_MASK`: bits 5 (K), 6 and 7 of the flag byte (R62; log entry 13). -/
def reservedMask : Byte := 0xE0

/-! ### Decoding -/

/-- Why a command word is no legal encoding (R70). -/
inductive Reject where
  /-- A bit of [15:11] is set. -/
  | reservedWordBits
  /-- An OP word whose flag byte has one of bits 5, 6, 7 set. -/
  | reservedFlags
  /-- INIT, CLONE or RESET with a nonzero flag byte or `more` set. -/
  | strayFields
  deriving DecidableEq, Repr

/-- The decoder's answer. -/
inductive Decoded where
  | instr (i : Instr)
  | rejected (r : Reject)
  deriving DecidableEq, Repr

/-- The operands an OP with an input stream takes from the port. -/
def Command.streamOp (c : Command) : StreamOp :=
  { engine := c.engine, more := CmdWord.more c.word, len := c.len, din := c.din }

/-- The operands an OP with a count and no input takes from the port: `din` is not read (D12; log entry 18). -/
def Command.countOp (c : Command) : CountOp :=
  { engine := c.engine, more := CmdWord.more c.word, len := c.len }

/-- The operation named by the low code `flags & 0x0F` and the M bit (R66, R67). -/
def decodeOp (code : Nat) (m : Bool) (c : Command) : Instr :=
  match code with
  | 0 => .op00 m c.streamOp
  | 1 => .op01 m c.streamOp
  | 2 => if m then .metaAD c.streamOp else .ad c.streamOp
  | 3 => .op03 m c.streamOp
  | 4 => if m then .metaRATCHET c.countOp else .ratchet c.countOp
  | 5 => .op05 m c.streamOp
  | 6 => if m then .metaKEY c.streamOp else .key c.streamOp
  | 7 => if m then .metaPRF c.countOp else .prf c.countOp
  | 8 => .op08 m c.streamOp
  | 9 => .op09 m c.streamOp
  | 10 => if m then .metaSendCLR c.streamOp else .sendCLR c.streamOp
  | 11 => if m then .metaRecvCLR c.streamOp else .recvCLR c.streamOp
  | 12 => if m then .metaSendMAC c.countOp else .sendMAC c.countOp
  | 13 => if m then .metaRecvMAC c.streamOp else .recvMAC c.streamOp
  | 14 => if m then .metaSendENC c.streamOp else .sendENC c.streamOp
  | _ => if m then .metaRecvENC c.streamOp else .recvENC c.streamOp

/-- The command of a kind other than OP: kind `01` INIT, `10` CLONE, `11` RESET (R63). -/
def decodeControl (kind : Nat) (c : Command) : Instr :=
  match kind with
  | 1 => .init c.engine c.sec c.len c.din
  | 2 => .clone c.src c.dst
  | _ => .reset c.engine

/-- The decoder, in the order of R205: word format first, then the reserved flag bits of an OP. -/
def decode (c : Command) : Decoded :=
  if CmdWord.zero c.word ≠ 0 then .rejected .reservedWordBits
  else if CmdWord.kind c.word = 0 then
    if CmdWord.flags c.word &&& reservedMask ≠ 0 then .rejected .reservedFlags
    else .instr (decodeOp (CmdWord.flags c.word &&& 0x0F).toNat ((CmdWord.flags c.word).getLsbD 4) c)
  else if CmdWord.flags c.word ≠ 0 ∨ CmdWord.more c.word = true then .rejected .strayFields
  else .instr (decodeControl (CmdWord.kind c.word).toNat c)

/-- The host's question: what the decoder reads from a command whose word is `w`, every operand
beside it being zero and its streams empty.  A command word is 16 bits (R65). -/
def decodeTableWord (nbits w : Nat) : Option Instr :=
  if nbits = 16 then
    match decode { word := BitVec.ofNat 16 w, engine := 0, len := 0, sec := 0, src := 0, dst := 0, din := [] } with
    | .instr i => some i
    | .rejected _ => none
  else none

/-! ### Encoding -/

/-- The word with the given fields (R63). -/
def makeWord (kind : BitVec 2) (more : Bool) (flags : Byte) : CmdWord :=
  (0#5 ++ kind ++ BitVec.ofBool more) ++ flags

/-- The flag byte of an un-named code, with M where `m` says so (R67). -/
def withM (m : Bool) (flags : Byte) : Byte := if m then flags ||| 0x10 else flags

/-- An OP command with an input stream. -/
def StreamOp.encode (a : StreamOp) (flags : Byte) : Command :=
  { word := makeWord 0 a.more flags, engine := a.engine, len := a.len, sec := 0, src := 0, dst := 0, din := a.din }

/-- An OP command with a count. -/
def CountOp.encode (a : CountOp) (flags : Byte) : Command :=
  { word := makeWord 0 a.more flags, engine := a.engine, len := a.len, sec := 0, src := 0, dst := 0, din := [] }

/-- The encoder, from the flag bytes of R66 and R67 and the kinds of R63. -/
def encode : Instr → Command
  | .ad a => a.encode 0x02
  | .metaAD a => a.encode 0x12
  | .key a => a.encode 0x06
  | .metaKEY a => a.encode 0x16
  | .sendCLR a => a.encode 0x0A
  | .metaSendCLR a => a.encode 0x1A
  | .recvCLR a => a.encode 0x0B
  | .metaRecvCLR a => a.encode 0x1B
  | .sendENC a => a.encode 0x0E
  | .metaSendENC a => a.encode 0x1E
  | .recvENC a => a.encode 0x0F
  | .metaRecvENC a => a.encode 0x1F
  | .sendMAC a => a.encode 0x0C
  | .metaSendMAC a => a.encode 0x1C
  | .recvMAC a => a.encode 0x0D
  | .metaRecvMAC a => a.encode 0x1D
  | .prf a => a.encode 0x07
  | .metaPRF a => a.encode 0x17
  | .ratchet a => a.encode 0x04
  | .metaRATCHET a => a.encode 0x14
  | .op00 m a => a.encode (withM m 0x00)
  | .op01 m a => a.encode (withM m 0x01)
  | .op03 m a => a.encode (withM m 0x03)
  | .op05 m a => a.encode (withM m 0x05)
  | .op08 m a => a.encode (withM m 0x08)
  | .op09 m a => a.encode (withM m 0x09)
  | .init t sec len label =>
    { word := makeWord 1 false 0, engine := t, len := len, sec := sec, src := 0, dst := 0, din := label }
  | .clone src dst =>
    { word := makeWord 2 false 0, engine := 0, len := 0, sec := 0, src := src, dst := dst, din := [] }
  | .reset t =>
    { word := makeWord 3 false 0, engine := t, len := 0, sec := 0, src := 0, dst := 0, din := [] }

/-! ### The opcode table, as a check on both -/

/-- The mnemonic of spec/opcode_table.json that each constructor stands for. -/
def Instr.mnemonic : Instr → String
  | .ad _ => "AD"
  | .metaAD _ => "metaAD"
  | .key _ => "KEY"
  | .metaKEY _ => "metaKEY"
  | .sendCLR _ => "sendCLR"
  | .metaSendCLR _ => "metaSendCLR"
  | .recvCLR _ => "recvCLR"
  | .metaRecvCLR _ => "metaRecvCLR"
  | .sendENC _ => "sendENC"
  | .metaSendENC _ => "metaSendENC"
  | .recvENC _ => "recvENC"
  | .metaRecvENC _ => "metaRecvENC"
  | .sendMAC _ => "sendMAC"
  | .metaSendMAC _ => "metaSendMAC"
  | .recvMAC _ => "recvMAC"
  | .metaRecvMAC _ => "metaRecvMAC"
  | .prf _ => "PRF"
  | .metaPRF _ => "metaPRF"
  | .ratchet _ => "RATCHET"
  | .metaRATCHET _ => "metaRATCHET"
  | .op00 _ _ => "OP.00"
  | .op01 _ _ => "OP.01"
  | .op03 _ _ => "OP.03"
  | .op05 _ _ => "OP.05"
  | .op08 _ _ => "OP.08"
  | .op09 _ _ => "OP.09"
  | .init _ _ _ _ => "INIT"
  | .clone _ _ => "CLONE"
  | .reset _ => "RESET"

/-- One row of the opcode table: a word belongs to the row when it agrees with `pattern` on the bits
of `mask`. -/
structure OpcodeRow where
  mnemonic : String
  pattern : CmdWord
  mask : CmdWord
  deriving DecidableEq, Repr

/-- The rows for the ten named operations. -/
def namedRows : List OpcodeRow :=
  [⟨"AD", 0x0002, 0xFEFF⟩, ⟨"KEY", 0x0006, 0xFEFF⟩, ⟨"sendCLR", 0x000A, 0xFEFF⟩,
   ⟨"recvCLR", 0x000B, 0xFEFF⟩, ⟨"sendENC", 0x000E, 0xFEFF⟩, ⟨"recvENC", 0x000F, 0xFEFF⟩,
   ⟨"sendMAC", 0x000C, 0xFEFF⟩, ⟨"recvMAC", 0x000D, 0xFEFF⟩, ⟨"PRF", 0x0007, 0xFEFF⟩,
   ⟨"RATCHET", 0x0004, 0xFEFF⟩]

/-- The rows for their meta variants. -/
def metaRows : List OpcodeRow :=
  [⟨"metaAD", 0x0012, 0xFEFF⟩, ⟨"metaKEY", 0x0016, 0xFEFF⟩, ⟨"metaSendCLR", 0x001A, 0xFEFF⟩,
   ⟨"metaRecvCLR", 0x001B, 0xFEFF⟩, ⟨"metaSendENC", 0x001E, 0xFEFF⟩, ⟨"metaRecvENC", 0x001F, 0xFEFF⟩,
   ⟨"metaSendMAC", 0x001C, 0xFEFF⟩, ⟨"metaRecvMAC", 0x001D, 0xFEFF⟩, ⟨"metaPRF", 0x0017, 0xFEFF⟩,
   ⟨"metaRATCHET", 0x0014, 0xFEFF⟩]

/-- The rows for the un-named codes and for the three commands that are not operations. -/
def otherRows : List OpcodeRow :=
  [⟨"OP.00", 0x0000, 0xFEEF⟩, ⟨"OP.01", 0x0001, 0xFEEF⟩, ⟨"OP.03", 0x0003, 0xFEEF⟩,
   ⟨"OP.05", 0x0005, 0xFEEF⟩, ⟨"OP.08", 0x0008, 0xFEEF⟩, ⟨"OP.09", 0x0009, 0xFEEF⟩,
   ⟨"INIT", 0x0200, 0xFFFF⟩, ⟨"CLONE", 0x0400, 0xFFFF⟩, ⟨"RESET", 0x0600, 0xFFFF⟩]

/-- The 29 rows of spec/opcode_table.json. -/
def opcodeRows : List OpcodeRow := namedRows ++ metaRows ++ otherRows

end Sys2Proof
end

