-- ==== Sys2Proof/Machine/Keccak.lean ====
section
/-!
DEFINITION. Keccak-f[1600] with 24 rounds over the 200-byte block: the permutation unit of
spec/00_scope.md R7, with the byte-to-lane mapping of spec/20_memory.md R46 and the round function of
spec/96_reference_model.md.  Mark: PRESUMED (the spec's general-knowledge item G4), log entry 10.
No operation of the engine looks inside it.
-/

namespace Sys2Proof.Machine

/-- The 25 lanes, lane `(x, y)` at index `x + 5*y`. -/
abbrev Lanes := List (BitVec 64)

/-- Lane `k` of the 25. -/
def laneAt (a : Lanes) (k : Nat) : BitVec 64 := a.getD k 0

/-- The 64-bit little-endian integer in a run of bytes, the first byte least significant (R46). -/
def littleEndian : List Byte → BitVec 64
  | [] => 0
  | b :: bs => (littleEndian bs <<< 8) ||| b.zeroExtend 64

/-- Lane `k` is the integer in bytes `8k .. 8k+7` (R46). -/
def toLanes (bytes : List Byte) : Lanes :=
  (List.range 25).map fun k => littleEndian ((bytes.drop (8 * k)).take 8)

/-- The 200 bytes that hold the lanes, in the same order. -/
def fromLanes (a : Lanes) : List Byte :=
  (List.range 200).map fun i => (laneAt a (i / 8)).extractLsb' (8 * (i % 8)) 8

/-- Parity of column `x`. -/
def columnParity (a : Lanes) (x : Nat) : BitVec 64 :=
  laneAt a x ^^^ laneAt a (x + 5) ^^^ laneAt a (x + 10) ^^^ laneAt a (x + 15) ^^^ laneAt a (x + 20)

/-- The theta step. -/
def theta (a : Lanes) : Lanes :=
  let c := (List.range 5).map (columnParity a)
  let d := (List.range 5).map fun x => laneAt c ((x + 4) % 5) ^^^ (laneAt c ((x + 1) % 5)).rotateLeft 1
  (List.range 25).map fun k => laneAt a k ^^^ laneAt d (k % 5)

/-- The rotation offset of lane `(x, y)`, listed at index `x + 5*y`. -/
def rotations : List Nat :=
  [0, 1, 62, 28, 27] ++ [36, 44, 6, 55, 20] ++ [3, 10, 43, 25, 39] ++ [41, 45, 15, 21, 8] ++ [18, 2, 61, 56, 14]

/-- The rho and pi steps: lane `(x, y)`, rotated, moves to `(y, 2x + 3y)`; read from the target side,
lane `(u, v)` comes from `(u + 3v, u)`. -/
def rhoPi (a : Lanes) : Lanes :=
  (List.range 25).map fun k =>
    let from_ := (k % 5 + 3 * (k / 5)) % 5 + 5 * (k % 5)
    (laneAt a from_).rotateLeft (rotations.getD from_ 0)

/-- The chi step. -/
def chi (a : Lanes) : Lanes :=
  (List.range 25).map fun k =>
    let row := 5 * (k / 5)
    laneAt a k ^^^ (~~~(laneAt a (row + (k + 1) % 5)) &&& laneAt a (row + (k + 2) % 5))

/-- The iota step with round constant `rc`. -/
def iota (rc : BitVec 64) (a : Lanes) : Lanes := (laneAt a 0 ^^^ rc) :: a.drop 1

/-- One round. -/
def keccakRound (a : Lanes) (rc : BitVec 64) : Lanes := iota rc (chi (rhoPi (theta a)))

/-- The 24 round constants. -/
def roundConstants : List (BitVec 64) :=
  [0x0000000000000001, 0x0000000000008082, 0x800000000000808A, 0x8000000080008000,
   0x000000000000808B, 0x0000000080000001, 0x8000000080008081, 0x8000000000008009] ++
  [0x000000000000008A, 0x0000000000000088, 0x0000000080008009, 0x000000008000000A,
   0x000000008000808B, 0x800000000000008B, 0x8000000000008089, 0x8000000000008003] ++
  [0x8000000000008002, 0x8000000000000080, 0x000000000000800A, 0x800000008000000A,
   0x8000000080008081, 0x8000000000008080, 0x0000000080000001, 0x8000000080008008]

/-- Keccak-f[1600] on the 200-byte block. -/
def keccakF1600 (b : Config.Block) : Config.Block :=
  ⟨(fromLanes (roundConstants.foldl keccakRound (toLanes b.toList))).toArray, by simp [fromLanes]⟩

end Sys2Proof.Machine
end

