-- ==== Sys2Proof/Machine/Params.lean ====
section
/-!
DEFINITION. The functions the open parameters name (spec/00_scope.md R7, R8), and the build a machine has
at reset.
-/

namespace Sys2Proof.Machine

/-- `F_rot` of spec/95_test_vectors.md V-P7: every byte moves one index down, byte 0 to index 199. -/
def rotateBlock (b : Config.Block) : Config.Block :=
  ⟨(b.toList.drop 1 ++ b.toList.take 1).toArray, by simp⟩

/-- The function of a permutation unit. -/
def permFunction : Config.PermUnit → Config.Block → Config.Block
  | .keccakF1600 => keccakF1600
  | .external => Config.externalF
  | .identity => fun b => b
  | .rotate => rotateBlock

/-- The parameter `F` of a build (R7). -/
def paramF (p : Config.Params) : Config.Block → Config.Block := permFunction p.perm

/-- The recommended `SEPARATOR`, the 12 ASCII bytes of "STROBEv1.0.2" (R8). -/
def recommendedSeparator : List Byte :=
  [0x53, 0x54, 0x52, 0x4F, 0x42, 0x45, 0x76, 0x31, 0x2E, 0x30, 0x2E, 0x32]

/-- The build that interoperates: Keccak-f[1600] and the recommended separator (R7, R8).
Mark: DESIGN CHOICE, log entries 2 and 3. -/
def interoperableParams : Config.Params :=
  { perm := .keccakF1600, separator := recommendedSeparator }

end Sys2Proof.Machine
end

