-- ==== Sys2Proof/Machine/State.lean ====
section
/-!
DEFINITION. The state of the machine: the engine instance record of spec/10_state.md R20, field for field,
and around it the one command port with the engines behind it (spec/00_scope.md R9, R10).
-/

namespace Sys2Proof.Machine

/-- The state buffer as a sparse list of (index, byte): indices strictly rising, no zero byte listed;
an index that is not listed holds 0, which is what reset leaves (R34). -/
abbrev Memory := List Host.Cell

/-- `security_level` (R21): 0 stands for "not yet configured". -/
inductive Level where
  | unset
  | bits128
  | bits256
  deriving DecidableEq, Repr

/-- `role` (R26). -/
inductive Role where
  | undecided
  | initiator
  | responder
  deriving DecidableEq, Repr

/-- `pad_mode` (R28): which of the two permutation-trigger modes `RunF` uses. -/
inductive PadMode where
  | plain
  | padded
  deriving DecidableEq, Repr

/-- The engine instance record (R20). -/
structure Engine where
  /-- R21: 0, 128 or 256. -/
  securityLevel : Level
  /-- R22: the 200-byte state buffer. -/
  st : Memory
  /-- R23: bytes of the window the cursor walks. -/
  rate : Nat
  /-- R24: the cursor. -/
  pos : Nat
  /-- R25: the cursor value recorded at the start of the current operation. -/
  posBegin : Nat
  /-- R26. -/
  role : Role
  /-- R27: the flag byte of the operation currently open, as the host issued it. -/
  activeFlags : Byte
  /-- R28. -/
  padMode : PadMode
  /-- R29: true from the end of INIT until the next reset. -/
  initialized : Bool
  deriving DecidableEq, Repr

/-- The status of a completed command (R201). -/
inductive Status where
  | ok
  | configurationError
  | streamingProtocolViolation
  | authenticationError
  deriving DecidableEq, Repr

/-- What the host is given for a command: its status and its output stream (R71). -/
structure Response where
  status : Status
  dout : List Byte
  deriving DecidableEq, Repr

/-- Why a step can stop.  The spec itself never stops the machine: its errors are statuses. -/
inductive Fault where
  /-- Raised by any OP, INIT or RESET addressed to an engine number with no engine behind the port.
  Safe: R9 numbers the engines `0 .. N_ENGINES-1` and gives no effect for another number (log entry 5). -/
  | noSuchEngine (t : Nat)
  /-- Raised by an OP or INIT whose input stream does not carry exactly `len` bytes, when it would
  start to consume it.  Safe: R50 says it does, and the spec gives no effect otherwise (log entry 6). -/
  | streamLength (len got : Nat)
  /-- Raised by an OP on an initialised engine whose cursor is not inside a rate window that fits the
  200-byte buffer, so that an index beyond the buffer would be touched.  Safe: no run reaches such a
  state (R31, R87; log entry 7). -/
  | cursorOutsideWindow
  deriving DecidableEq, Repr

/-- Why an instruction has no meaning. -/
inductive Refusal where
  /-- Raised by an arm of `exec` that has no meaning yet; no arm of this model does.  Safe. -/
  | notModelled (mnemonic : String)
  deriving DecidableEq, Repr

/-- The machine: a command port with a number of engines behind it. -/
structure State where
  /-- The open parameters of the build (R7, R8); no step writes them. -/
  params : Config.Params
  /-- The engine instances, numbered from 0 (R9, R35). -/
  engines : List Engine
  /-- Commands the host has issued and no engine has accepted yet, oldest first (R10, R51). -/
  pending : List Command
  /-- Responses returned to the host, oldest first (R71). -/
  responses : List Response
  deriving DecidableEq, Repr

/-- An engine after reset (R34, R220). -/
def Engine.reset : Engine :=
  { securityLevel := .unset, st := [], rate := 0, pos := 0, posBegin := 0, role := .undecided,
    activeFlags := 0x00, padMode := .plain, initialized := false }

/-- The machine right after reset: every engine at its reset values (R220) and nothing issued.  Two
engines, so that CLONE can run (R9).  Marks: DESIGN CHOICE, log entries 1 to 4. -/
def State.reset : State :=
  { params := interoperableParams, engines := [Engine.reset, Engine.reset], pending := [], responses := [] }

end Sys2Proof.Machine
end

