-- ==== Sys2Proof/Machine/Ops.lean ====
section
/-!
DEFINITION. The named operations on the state: the bytes of the state buffer, the permutation port, the
padding injector, the permutation trigger and the cursor (spec/40_sponge_adapter.md R80 to R87), the
byte-serial walk all primitives share (spec/41_duplex_primitives.md R100), taking a command from the
port, and ending a command with a status, which is all that an error does (spec/60_exceptions.md R209).
-/

namespace Sys2Proof.Machine

/-! ### Constants (R5) -/

/-- `STATE_BYTES`. -/
def stateBytes : Nat := 200

/-- `PAD_RESERVE`. -/
def padReserve : Nat := 2

/-- `PAD_04`. -/
def pad04 : Byte := 0x04

/-- `PAD_80`. -/
def pad80 : Byte := 0x80

/-! ### The state buffer (R40, R43) -/

/-- What an index that is not listed holds: 0, the reset content of the buffer (R34; log entry 14). -/
def Memory.unlisted : Byte := 0x00

/-- `st[a]`. -/
def Memory.read : Memory → Nat → Byte
  | [], _ => Memory.unlisted
  | (b, w) :: m, a => if a = b then w else Memory.read m a

/-- Put a byte at an index, keeping the list in its canonical form. -/
def Memory.put : Memory → Nat → Byte → Memory
  | [], a, v => if v = Memory.unlisted then [] else [(a, v)]
  | (b, w) :: m, a, v =>
    if a < b then (if v = Memory.unlisted then (b, w) :: m else (a, v) :: (b, w) :: m)
    else if a = b then (if v = Memory.unlisted then m else (a, v) :: m)
    else (b, w) :: Memory.put m a v

/-- `st[a] <- v`.  There is no byte beyond index 199; no command that executes asks for one (R87). -/
def Memory.write (m : Memory) (a : Nat) (v : Byte) : Memory :=
  if a < stateBytes then Memory.put m a v else m

/-- `st[a] ^<- v` (R11). -/
def Memory.xorAt (m : Memory) (a : Nat) (v : Byte) : Memory :=
  Memory.write m a (Memory.read m a ^^^ v)

/-- Zero to `n` bytes from index `a` on. -/
def Memory.clear : Memory → Nat → Nat → Memory
  | m, _, 0 => m
  | m, a, n + 1 => Memory.clear (Memory.write m a 0x00) (a + 1) n

/-- The list is canonical and its indices are at least `lo`. -/
def Memory.wfFrom : Nat → Memory → Bool
  | _, [] => true
  | lo, (a, v) :: m => decide (lo ≤ a) && decide (a < stateBytes) && decide (v ≠ Memory.unlisted) && Memory.wfFrom (a + 1) m

/-- The canonical form: indices strictly rising and below 200, no entry that an unlisted index would
read as. -/
def Memory.wf (m : Memory) : Bool := Memory.wfFrom 0 m

/-! ### The permutation port (R46, R47) -/

/-- All 200 bytes, index for index. -/
def Memory.toBlock (m : Memory) : Config.Block :=
  ⟨((List.range 200).map (Memory.read m)).toArray, by simp⟩

/-- The buffer that holds the given bytes from index `a` on and zero elsewhere. -/
def Memory.ofBytes : Nat → List Byte → Memory
  | _, [] => []
  | a, b :: bs => if b = Memory.unlisted then Memory.ofBytes (a + 1) bs else (a, b) :: Memory.ofBytes (a + 1) bs

/-- The buffer that holds the 200 bytes of a block, index for index. -/
def Memory.ofBlock (b : Config.Block) : Memory := Memory.ofBytes 0 b.toList

/-- `st <- F(st)` (R80). -/
def Memory.permute (F : Config.Block → Config.Block) (m : Memory) : Memory :=
  Memory.ofBlock (F (Memory.toBlock m))

/-! ### The permutation trigger (R80 to R83) -/

/-- The padding injector (R81): `pos_begin`, 0x04 and 0x80 at `pos`, `pos+1` and `rate+1`. -/
def Engine.padInject (e : Engine) : Engine :=
  { e with st := Memory.xorAt (Memory.xorAt (Memory.xorAt e.st e.pos (BitVec.ofNat 8 e.posBegin)) (e.pos + 1) pad04) (e.rate + 1) pad80 }

/-- What `RunF` hands to `F`: the padded buffer in Padded mode, the bare buffer in Plain mode (R80). -/
def Engine.portBlock (e : Engine) : Memory :=
  match e.padMode with
  | .padded => e.padInject.st
  | .plain => e.st

/-- `RunF()` (R80): the permutation trigger. -/
def Engine.runF (F : Config.Block → Config.Block) (e : Engine) : Engine :=
  { e with st := Memory.permute F e.portBlock, pos := 0, posBegin := 0 }

/-! ### The cursor (R84, R85) -/

/-- Fire the permutation if the cursor stands at the boundary. -/
def Engine.wrap (F : Config.Block → Config.Block) (e : Engine) : Engine :=
  if e.pos = e.rate then e.runF F else e

/-- `Advance()` (R84). -/
def Engine.advance (F : Config.Block → Config.Block) (e : Engine) : Engine :=
  Engine.wrap F { e with pos := e.pos + 1 }

/-- `ForceF()` (R85). -/
def Engine.forceF (F : Config.Block → Config.Block) (e : Engine) : Engine :=
  if e.pos = 0 then e else e.runF F

/-- The cursor is inside a rate window that fits the buffer with its two pad bytes; then no access of
a command leaves the buffer (R31, R87). -/
def Engine.windowOk (e : Engine) : Bool :=
  decide (e.pos < e.rate) && decide (e.rate + padReserve ≤ stateBytes)

/-! ### The byte-serial walk (R100) -/

/-- A row of the table of R100: the new state byte and the output byte, as functions of the state byte
`s` under the cursor and the input byte `d`. -/
structure ByteRule where
  newState : Byte → Byte → Byte
  output : Byte → Byte → Byte

/-- One step: the state byte is written, then the cursor advances. -/
def Engine.step1 (F : Config.Block → Config.Block) (r : ByteRule) (d : Byte) (e : Engine) : Engine :=
  Engine.advance F { e with st := Memory.write e.st e.pos (r.newState (Memory.read e.st e.pos) d) }

/-- All bytes in ascending index order, one per step (R100), with the bytes output. -/
def Engine.walk (F : Config.Block → Config.Block) (r : ByteRule) : List Byte → Engine → Engine × List Byte
  | [], e => (e, [])
  | d :: ds, e =>
    let rest := Engine.walk F r ds (Engine.step1 F r d e)
    (rest.1, r.output (Memory.read e.st e.pos) d :: rest.2)

/-- The OR of all bytes of a string: the accumulator of R159. -/
def orAll (bs : List Byte) : Byte := bs.foldl (· ||| ·) 0x00

/-! ### The command port -/

/-- The command next to be accepted, and the machine with it taken from the port (R51). -/
def State.accept (s : State) : Option (Command × State) :=
  match s.pending with
  | [] => none
  | c :: rest => some (c, { s with pending := rest })

/-- No command is waiting: "an idle engine simply holds its record" (R216, R221). -/
def State.idle (s : State) : State := s

/-- The command completes: its status and output are returned (R71). -/
def State.answer (s : State) (status : Status) (dout : List Byte) : State :=
  { s with responses := s.responses ++ [{ status := status, dout := dout }] }

/-- Raising an error: the command ends with the status in place of OK and no output; no state is saved,
no mode changes and nothing is transferred (R209).  There is no return from it: the next command is
accepted as after OK (R210). -/
def State.raise (s : State) (status : Status) : State := State.answer s status []

/-- The status as the 2-bit code returned to the host (R71, R201). -/
def Status.code : Status → BitVec 2
  | .ok => 0
  | .configurationError => 1
  | .streamingProtocolViolation => 2
  | .authenticationError => 3

/-- `role` in the two-bit encoding of R26; 3 never occurs. -/
def Role.code : Role → BitVec 2
  | .undecided => 0
  | .initiator => 1
  | .responder => 2

/-- The hardware reset input, the unconditional path of D33: every field of every instance takes its
reset value (R220).  It arrives from outside and is no command, so `step` does not call it (log entry 9). -/
def State.hardwareReset (s : State) : State :=
  { s with engines := s.engines.map fun _ => Engine.reset }

/-- Replace the record of engine `t`. -/
def State.setEngine (s : State) (t : Nat) (e : Engine) : State :=
  { s with engines := s.engines.set t e }

/-- The command with word `w`, every operand zero and no input. -/
def bareCommand (w : Nat) : Command :=
  { word := BitVec.ofNat 16 w, engine := 0, len := 0, sec := 0, src := 0, dst := 0, din := [] }

end Sys2Proof.Machine
end

