-- ==== Sys2Proof/Machine/Flags.lean ====
section
/-!
DEFINITION. The flag byte: its bits, role negotiation and adjustment, and the dispatch to a primitive
(spec/30_encoding.md R60 to R62, R68; spec/42_framing.md R121, R124, R125, R131).
-/

namespace Sys2Proof.Machine

/-! ### Flag bits (R61; log entry 11) -/

/-- I: an inbound operation. -/
def flagI : Byte := 0x01

/-- A: application-visible data. -/
def flagA : Byte := 0x02

/-- C: confidential. -/
def flagC : Byte := 0x04

/-- T: transport. -/
def flagT : Byte := 0x08

/-- M: metadata. -/
def flagM : Byte := 0x10

/-- K: reserved. -/
def flagK : Byte := 0x20

/-- A flag byte has a bit of the mask. -/
def hasFlag (flags mask : Byte) : Bool := flags &&& mask != 0

/-- `flags & 0x0F`, the bits that select the primitive. -/
def lowCode (flags : Byte) : Byte := flags &&& 0x0F

/-- A flag byte the engine refuses (R62, R122). -/
def reservedSet (flags : Byte) : Bool := flags &&& reservedMask != 0

/-! ### Role (R124, R125) -/

/-- Role negotiation (R124): the first transport operation decides. -/
def decideRole (flags : Byte) (role : Role) : Role :=
  if hasFlag flags flagT && role == .undecided then
    (if hasFlag flags flagI then .responder else .initiator)
  else role

/-- Role adjustment (R125): the framed flags of an operation issued in a role. -/
def framedFlags (flags : Byte) (role : Role) : Byte :=
  if hasFlag flags flagT && role == .responder then flags ^^^ flagI else flags

/-! ### Dispatch (R131) -/

/-- The seven duplex primitives. -/
inductive Prim where
  | absorb
  | overwrite
  | absorbAndSet
  | copyState
  | exchange
  | squeeze
  | zeroRun
  deriving DecidableEq, Repr

/-- `Prim(flags)` (R131): the tests in the rule's order. -/
def primOf (flags : Byte) : Prim :=
  let c := lowCode flags
  if c &&& 0x04 = 0 then .absorb
  else if c = 0x04 then .zeroRun
  else if c = 0x0C then .copyState
  else if c = 0x07 then .squeeze
  else if c &&& 0x0D = 0x0D then .exchange
  else if c &&& 0x0E = 0x0E then .absorbAndSet
  else .overwrite

/-- The exchange whose output is withheld and checked: low code 0x0D, recvMAC (R132, R159). -/
def withheld (flags : Byte) : Bool := lowCode flags == 0x0D

end Sys2Proof.Machine
end

