-- ==== Sys2Proof/Machine/Primitives.lean ====
section
/-!
DEFINITION. The seven duplex primitives (spec/41_duplex_primitives.md R100 to R107), each over the shared
byte-serial walk but for zero-run, which is block-aware.
-/

namespace Sys2Proof.Machine

/-- absorb (R101): `s ^ d`, no output. -/
def absorbRule : ByteRule := { newState := fun s d => s ^^^ d, output := fun _ _ => 0x00 }

/-- overwrite (R102): `d`, no output. -/
def overwriteRule : ByteRule := { newState := fun _ d => d, output := fun _ _ => 0x00 }

/-- absorb-and-set (R103): `s ^ d`, which is also the output. -/
def absorbAndSetRule : ByteRule := { newState := fun s d => s ^^^ d, output := fun s d => s ^^^ d }

/-- copy-state (R104): the state byte stays and is the output. -/
def copyStateRule : ByteRule := { newState := fun s _ => s, output := fun s _ => s }

/-- exchange (R105): the state receives the input byte, the output is `d ^ s`. -/
def exchangeRule : ByteRule := { newState := fun _ d => d, output := fun s d => d ^^^ s }

/-- squeeze (R106): the state byte is output, then zeroed. -/
def squeezeRule : ByteRule := { newState := fun _ _ => 0x00, output := fun s _ => s }

/-- `Absorb(data)` (R101). -/
def Engine.absorb (F : Config.Block → Config.Block) (data : List Byte) (e : Engine) : Engine :=
  (Engine.walk F absorbRule data e).1

/-- `Overwrite(data)` (R102). -/
def Engine.overwrite (F : Config.Block → Config.Block) (data : List Byte) (e : Engine) : Engine :=
  (Engine.walk F overwriteRule data e).1

/-- `AbsorbAndSet(data) -> out` (R103). -/
def Engine.absorbAndSet (F : Config.Block → Config.Block) (data : List Byte) (e : Engine) : Engine × List Byte :=
  Engine.walk F absorbAndSetRule data e

/-- `CopyState(n) -> out` (R104): it takes no input; the walk is over `n` steps. -/
def Engine.copyState (F : Config.Block → Config.Block) (n : Nat) (e : Engine) : Engine × List Byte :=
  Engine.walk F copyStateRule (List.replicate n 0x00) e

/-- `Exchange(data) -> out` (R105). -/
def Engine.exchange (F : Config.Block → Config.Block) (data : List Byte) (e : Engine) : Engine × List Byte :=
  Engine.walk F exchangeRule data e

/-- `Squeeze(n) -> out` (R106): it takes no input; the walk is over `n` steps. -/
def Engine.squeeze (F : Config.Block → Config.Block) (n : Nat) (e : Engine) : Engine × List Byte :=
  Engine.walk F squeezeRule (List.replicate n 0x00) e

/-- The loop of R107 with `remaining` bytes to go: each turn clears to the end of the run or of the
window, whichever is nearer.  `fuel` bounds the turns; every turn clears at least one byte while the
cursor is inside the window. -/
def Engine.zeroTurns (F : Config.Block → Config.Block) : Nat → Nat → Engine → Engine
  | 0, _, e => e
  | _ + 1, 0, e => e
  | fuel + 1, remaining + 1, e =>
    let k := min (e.rate - e.pos) (remaining + 1)
    Engine.zeroTurns F fuel (remaining + 1 - k)
      (Engine.wrap F { e with st := Memory.clear e.st e.pos k, pos := e.pos + k })

/-- `ZeroRun(n)` (R107). -/
def Engine.zeroRun (F : Config.Block → Config.Block) (n : Nat) (e : Engine) : Engine :=
  Engine.zeroTurns F n n e

end Sys2Proof.Machine
end

