-- ==== Sys2Proof/Machine/Operands.lean ====
section
/-!
DEFINITION. What a command does with its operands: which primitives take an input stream and the length
agreement it must meet (spec/42_framing.md R132, spec/20_memory.md R50), the primitive run over the
streams, and the security level an INIT asks for (spec/00_scope.md R6).
-/

namespace Sys2Proof.Machine

/-! ### The streams of an OP (R132) -/

/-- The primitive has an input stream. -/
def takesInput : Prim → Bool
  | .absorb => true
  | .overwrite => true
  | .absorbAndSet => true
  | .copyState => false
  | .exchange => true
  | .squeeze => false
  | .zeroRun => false

/-- The input stream does not carry exactly `len` bytes though the primitive takes input (R50). -/
def streamMismatch (flags : Byte) (len : Nat) (din : List Byte) : Bool :=
  takesInput (primOf flags) && din.length != len

/-- Run the primitive of the caller's flags over the streams; the bytes it produces (R131 to R133). -/
def Engine.runPrim (F : Config.Block → Config.Block) (flags : Byte) (len : Nat) (din : List Byte) (e : Engine) :
    Engine × List Byte :=
  match primOf flags with
  | .absorb => (Engine.absorb F din e, [])
  | .overwrite => (Engine.overwrite F din e, [])
  | .absorbAndSet => Engine.absorbAndSet F din e
  | .copyState => Engine.copyState F len e
  | .exchange => Engine.exchange F din e
  | .squeeze => Engine.squeeze F len e
  | .zeroRun => (Engine.zeroRun F len e, [])

/-- The status: AuthenticationError when a withheld exchange produced a nonzero byte (R159). -/
def finalStatus (flags : Byte) (produced : List Byte) : Status :=
  if withheld flags && orAll produced != 0 then .authenticationError else .ok

/-- The output stream: the bytes produced, unless they are withheld (R132). -/
def finalOutput (flags : Byte) (produced : List Byte) : List Byte :=
  if withheld flags then [] else produced

/-! ### The operand of INIT (R6, R88) -/

/-- The level a `sec` operand names: 128 or 256, "no other values valid". -/
def Level.ofSec (sec : BitVec 16) : Option Level :=
  if sec = 128 then some .bits128 else if sec = 256 then some .bits256 else none

/-- `security_level` in bits. -/
def Level.bits : Level → Nat
  | .unset => 0
  | .bits128 => 128
  | .bits256 => 256

/-- `initial_rate = 200 - security_level/4` (R6). -/
def Level.initialRate (l : Level) : Nat := stateBytes - Level.bits l / 4

end Sys2Proof.Machine
end

