-- ==== Sys2Proof/Machine/Sequencer.lean ====
section
/-!
DEFINITION. The operation sequencer: begin-operation framing, the checks before it and the OP command in
full (spec/42_framing.md R120 to R135), and the initialisation sequence (spec/40_sponge_adapter.md R88
to R93).
-/

namespace Sys2Proof.Machine

/-! ### Begin-operation framing (R124 to R130) -/

/-- Role negotiation on the engine (R124). -/
def Engine.negotiate (flags : Byte) (e : Engine) : Engine := { e with role := decideRole flags e.role }

/-- The two framing bytes (R126): the previous `pos_begin`, then the framed flags. -/
def Engine.frameBytes (F : Config.Block → Config.Block) (ff : Byte) (e : Engine) : Engine :=
  Engine.absorb F [BitVec.ofNat 8 e.posBegin, ff] { e with posBegin := e.pos + 1 }

/-- The forced permutation of a confidential operation (R127); the K term is dead (R70). -/
def Engine.forceConfidential (F : Config.Block → Config.Block) (ff : Byte) (e : Engine) : Engine :=
  if hasFlag ff (flagC ||| flagK) then e.forceF F else e

/-- `BeginOp(flags)` (R128): rules R124, R125, R126, R127 in that order. -/
def Engine.beginOp (F : Config.Block → Config.Block) (flags : Byte) (e : Engine) : Engine :=
  let e1 := e.negotiate flags
  let ff := framedFlags flags e1.role
  (e1.frameBytes F ff).forceConfidential F ff

/-- `BeginOp` and the record of the open operation (R130). -/
def Engine.openOp (F : Config.Block → Config.Block) (flags : Byte) (e : Engine) : Engine :=
  { e.beginOp F flags with activeFlags := flags }

/-- The engine on which the primitive runs: a continuation skips framing entirely (R129). -/
def Engine.enterOp (F : Config.Block → Config.Block) (flags : Byte) (more : Bool) (e : Engine) : Engine :=
  if more then e else e.openOp F flags

/-! ### The OP command (R120, R135) -/

/-- The checks before any mutation, in the order of R120 and R205: the error they raise, if any. -/
def Engine.precheck (flags : Byte) (more : Bool) (e : Engine) : Option Status :=
  if reservedSet flags then some .configurationError
  else if !e.initialized then some .configurationError
  else if more && flags != e.activeFlags then some .streamingProtocolViolation
  else none

/-- Steps 4 to 8 of R120 on the engine: what `OP` leaves in the record, and the bytes produced. -/
def Engine.opResult (F : Config.Block → Config.Block) (flags : Byte) (more : Bool) (len : Nat) (din : List Byte)
    (e : Engine) : Engine × List Byte :=
  (e.enterOp F flags more).runPrim F flags len din

/-- `OP(flags, more, len, din)` on engine `t` (R135). -/
def execOp (flags : Byte) (t : Nat) (more : Bool) (len : Nat) (din : List Byte) (s : State) :
    Host.Outcome State Fault Refusal :=
  match s.engines[t]? with
  | none => .fault (.noSuchEngine t)
  | some e =>
    match e.precheck flags more with
    | some status => .next (s.raise status)
    | none =>
      if !e.windowOk then .fault .cursorOutsideWindow
      else if streamMismatch flags len din then .fault (.streamLength len din.length)
      else
        let r := e.opResult (paramF s.params) flags more len din
        .next ((s.setEngine t r.1).answer (finalStatus flags r.2) (finalOutput flags r.2))

/-- An OP whose row has an input stream. -/
def execStream (flags : Byte) (a : StreamOp) (s : State) : Host.Outcome State Fault Refusal :=
  execOp flags a.engine a.more a.len a.din s

/-- An OP whose row has a count and no input stream. -/
def execCount (flags : Byte) (a : CountOp) (s : State) : Host.Outcome State Fault Refusal :=
  execOp flags a.engine a.more a.len [] s

/-! ### Initialisation (R88 to R93) -/

/-- The flag byte of the label operation, A and M (R5, R93). -/
def initFlags : Byte := 0x12

/-- The clearing step (R89): every field at its reset value, then the level and the initial rate. -/
def initClear (level : Level) : Engine :=
  { Engine.reset with securityLevel := level, rate := Level.initialRate level }

/-- The header (R90). -/
def initHeader (separator : List Byte) (rate : Nat) : List Byte :=
  [0x01, BitVec.ofNat 8 rate, 0x01, 0x00, 0x01, BitVec.ofNat 8 (8 * separator.length)] ++ separator

/-- The header absorb with forced flush, in plain mode (R91). -/
def initAbsorbHeader (F : Config.Block → Config.Block) (separator : List Byte) (e : Engine) : Engine :=
  (e.absorb F (initHeader separator e.rate)).forceF F

/-- The switch (R92): the rate reduction and the padded mode, permanently. -/
def initSwitch (e : Engine) : Engine :=
  { e with rate := e.rate - padReserve, padMode := .padded, initialized := true }

/-- The engine after a successful INIT (R89 to R93): the label is absorbed as metaAD. -/
def initEngine (F : Config.Block → Config.Block) (separator : List Byte) (level : Level) (label : List Byte) : Engine :=
  ((initSwitch (initAbsorbHeader F separator (initClear level))).openOp F initFlags).absorb F label

end Sys2Proof.Machine
end

