-- ==== Sys2Proof/Machine/Control.lean ====
section
/-!
DEFINITION. The three commands that are not operations: INIT, CLONE and RESET (spec/43_operations.md R180
to R182).
-/

namespace Sys2Proof.Machine

/-- INIT on engine `t` (R180): the operand check before any change (R88), then the sequence. -/
def execInit (t : Nat) (sec : BitVec 16) (len : Nat) (label : List Byte) (s : State) :
    Host.Outcome State Fault Refusal :=
  if t < s.engines.length then
    match Level.ofSec sec with
    | none => .next (s.raise .configurationError)
    | some level =>
      if label.length = len then
        .next ((s.setEngine t (initEngine (paramF s.params) s.params.separator level label)).answer .ok [])
      else .fault (.streamLength len label.length)
  else .fault (.noSuchEngine t)

/-- CLONE (R182): every field of `dst` becomes that of `src`; ConfigurationError when there is one
engine, a number is out of range, the two are equal, or the source is not initialised. -/
def execClone (src dst : Nat) (s : State) : Host.Outcome State Fault Refusal :=
  match s.engines[src]? with
  | none => .next (s.raise .configurationError)
  | some e =>
    if 2 ≤ s.engines.length ∧ dst < s.engines.length ∧ src ≠ dst ∧ e.initialized = true then
      .next ((s.setEngine dst e).answer .ok [])
    else .next (s.raise .configurationError)

/-- RESET of engine `t` (R181): every field takes its reset value, in this engine alone (log entry 16).  It
never fails. -/
def execReset (t : Nat) (s : State) : Host.Outcome State Fault Refusal :=
  if t < s.engines.length then .next ((s.setEngine t Engine.reset).answer .ok [])
  else .fault (.noSuchEngine t)

end Sys2Proof.Machine
end

