-- ==== Sys2Proof/Machine/Meta.lean ====
section
/-!
DEFINITION. The meta variants of the ten named operations (spec/43_operations.md R162 to R171): the same
flag byte with M.
-/

namespace Sys2Proof.Machine

/-- metaAD (R162). -/
def execMetaAD (a : StreamOp) (s : State) : Host.Outcome State Fault Refusal := execStream 0x12 a s

/-- metaKEY (R163). -/
def execMetaKEY (a : StreamOp) (s : State) : Host.Outcome State Fault Refusal := execStream 0x16 a s

/-- metaSendCLR (R164). -/
def execMetaSendCLR (a : StreamOp) (s : State) : Host.Outcome State Fault Refusal := execStream 0x1A a s

/-- metaRecvCLR (R165). -/
def execMetaRecvCLR (a : StreamOp) (s : State) : Host.Outcome State Fault Refusal := execStream 0x1B a s

/-- metaSendENC (R166). -/
def execMetaSendENC (a : StreamOp) (s : State) : Host.Outcome State Fault Refusal := execStream 0x1E a s

/-- metaRecvENC (R167). -/
def execMetaRecvENC (a : StreamOp) (s : State) : Host.Outcome State Fault Refusal := execStream 0x1F a s

/-- metaSendMAC (R168). -/
def execMetaSendMAC (a : CountOp) (s : State) : Host.Outcome State Fault Refusal := execCount 0x1C a s

/-- metaRecvMAC (R169, R159). -/
def execMetaRecvMAC (a : StreamOp) (s : State) : Host.Outcome State Fault Refusal := execStream 0x1D a s

/-- metaPRF (R170). -/
def execMetaPRF (a : CountOp) (s : State) : Host.Outcome State Fault Refusal := execCount 0x17 a s

/-- metaRATCHET (R171). -/
def execMetaRATCHET (a : CountOp) (s : State) : Host.Outcome State Fault Refusal := execCount 0x14 a s

end Sys2Proof.Machine
end

