-- ==== Sys2Proof/Machine/Named.lean ====
section
/-!
DEFINITION. The ten named operations (spec/43_operations.md R151 to R161): each is the OP command with a
fixed flag byte (spec/30_encoding.md R66).
-/

namespace Sys2Proof.Machine

/-- AD (R151). -/
def execAD (a : StreamOp) (s : State) : Host.Outcome State Fault Refusal := execStream 0x02 a s

/-- KEY (R152). -/
def execKEY (a : StreamOp) (s : State) : Host.Outcome State Fault Refusal := execStream 0x06 a s

/-- sendCLR (R153). -/
def execSendCLR (a : StreamOp) (s : State) : Host.Outcome State Fault Refusal := execStream 0x0A a s

/-- recvCLR (R154). -/
def execRecvCLR (a : StreamOp) (s : State) : Host.Outcome State Fault Refusal := execStream 0x0B a s

/-- sendENC (R155). -/
def execSendENC (a : StreamOp) (s : State) : Host.Outcome State Fault Refusal := execStream 0x0E a s

/-- recvENC (R156). -/
def execRecvENC (a : StreamOp) (s : State) : Host.Outcome State Fault Refusal := execStream 0x0F a s

/-- sendMAC (R157). -/
def execSendMAC (a : CountOp) (s : State) : Host.Outcome State Fault Refusal := execCount 0x0C a s

/-- recvMAC (R158, R159). -/
def execRecvMAC (a : StreamOp) (s : State) : Host.Outcome State Fault Refusal := execStream 0x0D a s

/-- PRF (R160). -/
def execPRF (a : CountOp) (s : State) : Host.Outcome State Fault Refusal := execCount 0x07 a s

/-- RATCHET (R161). -/
def execRATCHET (a : CountOp) (s : State) : Host.Outcome State Fault Refusal := execCount 0x04 a s

end Sys2Proof.Machine
end

