-- ==== Sys2Proof/Machine/Unnamed.lean ====
section
/-!
DEFINITION. The six un-named flag codes, with and without M (spec/43_operations.md R172 to R177): admitted
and executed (spec/30_encoding.md R67, decision D11; log entry 12).
-/

namespace Sys2Proof.Machine

/-- OP.00 (R172). -/
def execOp00 (m : Bool) (a : StreamOp) (s : State) : Host.Outcome State Fault Refusal := execStream (withM m 0x00) a s

/-- OP.01 (R173). -/
def execOp01 (m : Bool) (a : StreamOp) (s : State) : Host.Outcome State Fault Refusal := execStream (withM m 0x01) a s

/-- OP.03 (R174). -/
def execOp03 (m : Bool) (a : StreamOp) (s : State) : Host.Outcome State Fault Refusal := execStream (withM m 0x03) a s

/-- OP.05 (R175). -/
def execOp05 (m : Bool) (a : StreamOp) (s : State) : Host.Outcome State Fault Refusal := execStream (withM m 0x05) a s

/-- OP.08 (R176). -/
def execOp08 (m : Bool) (a : StreamOp) (s : State) : Host.Outcome State Fault Refusal := execStream (withM m 0x08) a s

/-- OP.09 (R177). -/
def execOp09 (m : Bool) (a : StreamOp) (s : State) : Host.Outcome State Fault Refusal := execStream (withM m 0x09) a s

end Sys2Proof.Machine
end

