-- ==== Sys2Proof/Machine/Dispatch.lean ====
section
/-! DEFINITION. The dispatch of a decoded command to its meaning: one arm per constructor of Instr. -/

namespace Sys2Proof.Machine

def exec (i : Instr) (s : State) : Host.Outcome State Fault Refusal :=
  match i with
  | .ad a => Sys2Proof.Machine.execAD a s
  | .metaAD a => Sys2Proof.Machine.execMetaAD a s
  | .key a => Sys2Proof.Machine.execKEY a s
  | .metaKEY a => Sys2Proof.Machine.execMetaKEY a s
  | .sendCLR a => Sys2Proof.Machine.execSendCLR a s
  | .metaSendCLR a => Sys2Proof.Machine.execMetaSendCLR a s
  | .recvCLR a => Sys2Proof.Machine.execRecvCLR a s
  | .metaRecvCLR a => Sys2Proof.Machine.execMetaRecvCLR a s
  | .sendENC a => Sys2Proof.Machine.execSendENC a s
  | .metaSendENC a => Sys2Proof.Machine.execMetaSendENC a s
  | .recvENC a => Sys2Proof.Machine.execRecvENC a s
  | .metaRecvENC a => Sys2Proof.Machine.execMetaRecvENC a s
  | .sendMAC a => Sys2Proof.Machine.execSendMAC a s
  | .metaSendMAC a => Sys2Proof.Machine.execMetaSendMAC a s
  | .recvMAC a => Sys2Proof.Machine.execRecvMAC a s
  | .metaRecvMAC a => Sys2Proof.Machine.execMetaRecvMAC a s
  | .prf a => Sys2Proof.Machine.execPRF a s
  | .metaPRF a => Sys2Proof.Machine.execMetaPRF a s
  | .ratchet a => Sys2Proof.Machine.execRATCHET a s
  | .metaRATCHET a => Sys2Proof.Machine.execMetaRATCHET a s
  | .op00 m a => Sys2Proof.Machine.execOp00 m a s
  | .op01 m a => Sys2Proof.Machine.execOp01 m a s
  | .op03 m a => Sys2Proof.Machine.execOp03 m a s
  | .op05 m a => Sys2Proof.Machine.execOp05 m a s
  | .op08 m a => Sys2Proof.Machine.execOp08 m a s
  | .op09 m a => Sys2Proof.Machine.execOp09 m a s
  | .init t sec len label => Sys2Proof.Machine.execInit t sec len label s
  | .clone src dst => Sys2Proof.Machine.execClone src dst s
  | .reset t => Sys2Proof.Machine.execReset t s

end Sys2Proof.Machine
end

