-- ==== Sys2Proof/Machine/Step.lean ====
section
/-!
DEFINITION. One step of the machine: the next command on the port is accepted, decoded and executed to
completion (spec/00_scope.md R10, spec/20_memory.md R51); with no command waiting the machine holds its
state (spec/60_exceptions.md R216).
-/

namespace Sys2Proof.Machine

/-- One step.  A word that the decoder rejects is one of R70's refused encodings: it ends with
ConfigurationError and changes nothing (R202). -/
def step (s : State) : Host.Outcome State Fault Refusal :=
  match s.accept with
  | none => .next s.idle
  | some (c, s1) =>
    match decode c with
    | .instr i => exec i s1
    | .rejected _ => .next (s1.raise .configurationError)

/-- The host issues the command with word `w`, every operand zero, ahead of any other (log entry 4). -/
def State.withFetchWord (s : State) (nbits w : Nat) : State :=
  { s with pending := bareCommand (w % 2 ^ nbits) :: s.pending }

end Sys2Proof.Machine
end

