-- ==== Sys2Proof/Safety.lean ====
section
/-!
DEFINITION. The terms in which claims are stated: the between-commands invariants of spec/10_state.md R31,
the view of an operation as the OP command of spec/42_framing.md R135, and what it means for two engines
to hold the same duplex state (spec/42_framing.md R139).
-/

namespace Sys2Proof

open Machine

/-! ### Invariants (R31) -/

/-- What R31 says of an initialised engine between commands: the cursor inside the window (item 1), the
rate of the level (items 2, 8), the padded mode (item 5), the operation start behind the cursor (item
6) and no reserved flag bit recorded (item 7). -/
abbrev Machine.Engine.LiveInv (e : Engine) : Prop :=
  e.securityLevel ≠ .unset ∧ e.rate = Level.initialRate e.securityLevel - padReserve ∧ e.pos < e.rate ∧
  e.padMode = .padded ∧ e.posBegin ≤ e.pos ∧ (e.posBegin = e.pos → e.pos = 0) ∧ e.activeFlags &&& 0xE0 = 0

/-- R31 for one engine, with its buffer in canonical form: an engine that is not initialised holds its
reset values. -/
abbrev Machine.Engine.Inv (e : Engine) : Prop :=
  Memory.wf e.st = true ∧ (e.initialized = false → e = Engine.reset) ∧ (e.initialized = true → e.LiveInv)

/-- R31 for every engine behind the port. -/
abbrev Machine.State.Inv (s : State) : Prop := ∀ e ∈ s.engines, e.Inv

/-- An engine that executes operations: initialised, and as R31 says it then is. -/
abbrev Machine.Engine.Ready (e : Engine) : Prop := e.initialized = true ∧ e.Inv

/-! ### An operation as the OP command (R135) -/

/-- The inputs of the OP command of R135 and the engine it is addressed to. -/
structure OpView where
  flags : Byte
  engine : Nat
  more : Bool
  len : Nat
  din : List Byte
  deriving DecidableEq, Repr

/-- The OP command with an input stream and the given flag byte. -/
def StreamOp.view (a : StreamOp) (flags : Byte) : OpView :=
  { flags := flags, engine := a.engine, more := a.more, len := a.len, din := a.din }

/-- The OP command with a count and the given flag byte. -/
def CountOp.view (a : CountOp) (flags : Byte) : OpView :=
  { flags := flags, engine := a.engine, more := a.more, len := a.len, din := [] }

/-- The OP command that an operation is (R66, R67); INIT, CLONE and RESET are none. -/
def Instr.opView : Instr → Option OpView
  | .ad a => some (a.view 0x02)
  | .metaAD a => some (a.view 0x12)
  | .key a => some (a.view 0x06)
  | .metaKEY a => some (a.view 0x16)
  | .sendCLR a => some (a.view 0x0A)
  | .metaSendCLR a => some (a.view 0x1A)
  | .recvCLR a => some (a.view 0x0B)
  | .metaRecvCLR a => some (a.view 0x1B)
  | .sendENC a => some (a.view 0x0E)
  | .metaSendENC a => some (a.view 0x1E)
  | .recvENC a => some (a.view 0x0F)
  | .metaRecvENC a => some (a.view 0x1F)
  | .sendMAC a => some (a.view 0x0C)
  | .metaSendMAC a => some (a.view 0x1C)
  | .recvMAC a => some (a.view 0x0D)
  | .metaRecvMAC a => some (a.view 0x1D)
  | .prf a => some (a.view 0x07)
  | .metaPRF a => some (a.view 0x17)
  | .ratchet a => some (a.view 0x04)
  | .metaRATCHET a => some (a.view 0x14)
  | .op00 m a => some (a.view (withM m 0x00))
  | .op01 m a => some (a.view (withM m 0x01))
  | .op03 m a => some (a.view (withM m 0x03))
  | .op05 m a => some (a.view (withM m 0x05))
  | .op08 m a => some (a.view (withM m 0x08))
  | .op09 m a => some (a.view (withM m 0x09))
  | .init _ _ _ _ => none
  | .clone _ _ => none
  | .reset _ => none

/-- The stream carries `len` bytes if the primitive takes input (R50). -/
def OpView.lengthsAgree (v : OpView) : Prop :=
  takesInput (primOf v.flags) = true → v.din.length = v.len

/-- The engine that a command may write: the one addressed, or CLONE's destination (R35). -/
def Instr.writes : Instr → Nat
  | .ad a | .metaAD a | .key a | .metaKEY a | .sendCLR a | .metaSendCLR a => a.engine
  | .recvCLR a | .metaRecvCLR a | .sendENC a | .metaSendENC a => a.engine
  | .recvENC a | .metaRecvENC a | .recvMAC a | .metaRecvMAC a => a.engine
  | .sendMAC a | .metaSendMAC a | .prf a | .metaPRF a | .ratchet a | .metaRATCHET a => a.engine
  | .op00 _ a | .op01 _ a | .op03 _ a | .op05 _ a | .op08 _ a | .op09 _ a => a.engine
  | .init t _ _ _ => t
  | .clone _ dst => dst
  | .reset t => t

/-- The engine addressed exists; CLONE checks its own numbers (R182). -/
def Instr.addressed (i : Instr) (n : Nat) : Prop :=
  match i with
  | .clone _ _ => True
  | i => i.writes < n

/-! ### Outcomes and duplex states -/

/-- The machine after a command on engine `t` that left the record `e` and returned a response. -/
def Machine.State.completed (s : State) (t : Nat) (e : Engine) (status : Status) (dout : List Byte) : State :=
  { s with engines := s.engines.set t e, responses := s.responses ++ [{ status := status, dout := dout }] }

/-- The machine after a command that only returned a response. -/
def Machine.State.responded (s : State) (status : Status) (dout : List Byte) : State :=
  { s with responses := s.responses ++ [{ status := status, dout := dout }] }

/-- Two engines hold the same duplex state: all of `st`, `pos`, `pos_begin` equal, at the same rate and
in the same mode (R139). -/
abbrev Machine.Engine.SameDuplex (e e' : Engine) : Prop :=
  e.st = e'.st ∧ e.pos = e'.pos ∧ e.posBegin = e'.posBegin ∧ e.rate = e'.rate ∧ e.padMode = e'.padMode

/-- The roles in which a send by one engine and the matching receive by the other frame the same byte
(R139): the sender is not yet or no Responder and the receiver not yet or no Initiator, or both
roles are decided the other way round. -/
abbrev RolesMatch (sender receiver : Role) : Prop :=
  (sender ≠ .responder ∧ receiver ≠ .initiator) ∨ (sender = .responder ∧ receiver = .initiator)

/-- The next state of an outcome, if there is one. -/
def nextState : Host.Outcome State Fault Refusal → Option State
  | .next s => some s
  | .fault _ => none
  | .refused _ => none

end Sys2Proof
end

