-- ==== Sys2Proof/Certificates/Slice0/Obligations.lean ====
section
/-!
DEFINITION. The statements for the provers, one def Obligations.<Name> each, in the order of spec/: encoding,
reset and invariants, frames, the checks, the adapter, the primitives, framing, the operations, the
three other commands.
-/

open Sys2Proof Sys2Proof.Machine

/-! ### Encoding -/

/-- Every command, with every operand at every value, is read back from its encoding (30 R63, R66, R67). -/
def Obligations.DecodeOfEncodeIsIdentity : Prop :=
  ∀ i : Instr, decode (encode i) = .instr i

/-- What the decoder reads, encoded again, has the word it was read from and every operand its kind
carries (30 R63, 42 R132). -/
def Obligations.EncodeOfDecodeKeepsTheCommand : Prop :=
  ∀ (c : Command) (i : Instr), decode c = .instr i →
    (encode i).word = c.word ∧
    (c.word.extractLsb' 9 2 = 0 → (encode i).engine = c.engine ∧ (encode i).len = c.len ∧
      (encode i).din = if takesInput (primOf (c.word.extractLsb' 0 8)) then c.din else []) ∧
    (c.word.extractLsb' 9 2 = 1 → (encode i).engine = c.engine ∧ (encode i).sec = c.sec ∧
      (encode i).len = c.len ∧ (encode i).din = c.din) ∧
    (c.word.extractLsb' 9 2 = 2 → (encode i).src = c.src ∧ (encode i).dst = c.dst) ∧
    (c.word.extractLsb' 9 2 = 3 → (encode i).engine = c.engine)

/-- A word is decoded to the instruction of a row of the opcode table exactly when it has the row's
pattern under the row's mask. -/
def Obligations.DecoderFollowsTheOpcodeTable : Prop :=
  ∀ (c : Command) (row : OpcodeRow), row ∈ opcodeRows →
    (c.word &&& row.mask = row.pattern ↔ ∃ i, decode c = .instr i ∧ i.mnemonic = row.mnemonic)

/-- A few words of R66 and R67, written out from the encoding (with the operands beside them zero).
That the un-named OP.09 is admitted is the model's choice, log entry 12. -/
def Obligations.DecodesWordsOfTheTable : Prop :=
  decodeTableWord 16 0x0002 = some (.ad ⟨0, false, 0, []⟩) ∧
  decodeTableWord 16 0x0112 = some (.metaAD ⟨0, true, 0, []⟩) ∧
  decodeTableWord 16 0x0107 = some (.prf ⟨0, true, 0⟩) ∧
  decodeTableWord 16 0x001D = some (.metaRecvMAC ⟨0, false, 0, []⟩) ∧
  decodeTableWord 16 0x0019 = some (.op09 true ⟨0, false, 0, []⟩) ∧
  decodeTableWord 16 0x0200 = some (.init 0 0 0 []) ∧
  decodeTableWord 16 0x0400 = some (.clone 0 0) ∧
  decodeTableWord 16 0x0600 = some (.reset 0) ∧
  decodeTableWord 16 0x0802 = none ∧ decodeTableWord 16 0x0022 = none ∧ decodeTableWord 16 0x0202 = none

/-- The next command on the port, decoded, is what the step executes, with the command taken from the
port; with no command waiting the machine holds its state (20 R51, 60 R216; the port itself is the model's, log entry 4). -/
def Obligations.StepRunsTheDecodedCommand : Prop :=
  (∀ (s : State) (c : Command) (rest : List Command) (i : Instr), s.pending = c :: rest →
    decode c = .instr i → step s = exec i { s with pending := rest }) ∧
  (∀ s : State, s.pending = [] → step s = .next s)

/-- A flag byte with a bit of 0xE0 set in an OP word, opening or continuation, is answered with
ConfigurationError and nothing else changes (42 R122).  That bits 5, 6 and 7 are all reserved is a choice,
log entry 13 (30 R62, the spec's decision D4); that the answer is the same for an engine number with no
engine is the model's reading, log entry 20. -/
def Obligations.ReservedFlagBitsAreRefused : Prop :=
  ∀ (s : State) (c : Command) (rest : List Command), s.pending = c :: rest →
    c.word.extractLsb' 9 7 = 0 → c.word.extractLsb' 0 8 &&& 0xE0 ≠ 0 →
    step s = .next { s with pending := rest, responses := s.responses ++ [⟨.configurationError, []⟩] }

/-- A word with a bit of [15:11] set, and an INIT, CLONE or RESET word with a stray field, is answered
with ConfigurationError and nothing else changes (30 section 5; the word format is the spec's own
decision D2, and the same answer whichever engine is named is the model's reading, log entry 20). -/
def Obligations.MalformedWordsAreRefused : Prop :=
  ∀ (s : State) (c : Command) (rest : List Command), s.pending = c :: rest →
    (c.word.extractLsb' 11 5 ≠ 0 ∨
      (c.word.extractLsb' 9 2 ≠ 0 ∧ (c.word.extractLsb' 0 8 ≠ 0 ∨ c.word.getLsbD 8 = true))) →
    step s = .next { s with pending := rest, responses := s.responses ++ [⟨.configurationError, []⟩] }

/-! ### Reset and invariants -/

/-- Every engine right after reset, and every engine after the hardware reset input in any state, holds the
values of R34 and R220, all 200 bytes zero; the reset input loses no engine.  How many engines there
are after reset is the model's choice (log entry 1); the values are the spec's own decision D17. -/
def Obligations.ResetLeavesTheSpecifiedValues : Prop :=
  ∀ s : State, s.hardwareReset.engines.length = s.engines.length ∧
    ∀ e ∈ State.reset.engines ++ s.hardwareReset.engines,
      e.securityLevel = .unset ∧ (∀ a, Memory.read e.st a = 0) ∧ e.rate = 0 ∧ e.pos = 0 ∧
        e.posBegin = 0 ∧ e.role = .undecided ∧ e.activeFlags = 0x00 ∧ e.padMode = .plain ∧ e.initialized = false

/-- The invariants of R31 hold after reset. -/
def Obligations.ResetMeetsTheInvariant : Prop := State.reset.Inv

/-- Every step keeps the invariants of R31, from every state that meets them. -/
def Obligations.StepKeepsTheInvariant : Prop :=
  ∀ s t : State, s.Inv → step s = .next t → t.Inv

/-- From a state that meets the invariants of R31 no command stops the machine: no index outside the
buffer is touched and every command ends with a response (40 R87, 60 R200).  The premise on the waiting
command is the host's part: it is addressed to an engine that exists and its stream has its length.
That the un-named codes execute is the model's choice, log entry 12, and that a rejected word is answered
whichever engine it names is its reading, log entry 20. -/
def Obligations.CommandsAlwaysComplete : Prop :=
  ∀ s : State, s.Inv →
    (∀ c rest i, s.pending = c :: rest → decode c = .instr i → i.wellFormed = true ∧ i.addressed s.engines.length) →
    ∃ t, step s = .next t ∧ t.pending = s.pending.tail ∧
      t.responses.length = s.responses.length + min 1 s.pending.length

/-! ### Frames -/

/-- A command that gives a next state changes no engine but the one it is addressed to (CLONE: its
destination), leaves the parameters and the port alone, and returns exactly one response (10 R35). -/
def Obligations.CommandsTouchOnlyTheirEngine : Prop :=
  ∀ (i : Instr) (s t : State), exec i s = .next t →
    t.params = s.params ∧ t.pending = s.pending ∧ t.engines.length = s.engines.length ∧
    (∀ k, k ≠ i.writes → t.engines[k]? = s.engines[k]?) ∧ (∃ r, t.responses = s.responses ++ [r])

/-- What an operation does to its engine, and what it answers, depends on that engine and the parameters
alone: other engines, other commands and earlier responses have no influence (10 R35). -/
def Obligations.OperationsReadOnlyTheirEngine : Prop :=
  ∀ (i : Instr) (v : OpView) (s t s' : State), i.opView = some v → s'.params = s.params →
    s'.engines[v.engine]? = s.engines[v.engine]? → exec i s = .next t →
    ∃ t', exec i s' = .next t' ∧ t'.engines[v.engine]? = t.engines[v.engine]? ∧
      (∀ r, t.responses = s.responses ++ [r] → t'.responses = s'.responses ++ [r])

/-- ConfigurationError and StreamingProtocolViolation are side-effect free: the command returns the
status, no output, and the state otherwise as it was, for a command executed and for a whole step, a
rejected word among them (60 R207). -/
def Obligations.ErrorsBeforeMutationChangeNothing : Prop :=
  (∀ (i : Instr) (s t : State) (r : Response), exec i s = .next t → t.responses = s.responses ++ [r] →
    (r.status = .configurationError ∨ r.status = .streamingProtocolViolation) →
    r.dout = [] ∧ t = { s with responses := s.responses ++ [r] }) ∧
  (∀ (s t : State) (r : Response), step s = .next t → t.responses = s.responses ++ [r] →
    (r.status = .configurationError ∨ r.status = .streamingProtocolViolation) →
    r.dout = [] ∧ t = { s with pending := s.pending.tail, responses := s.responses ++ [r] })

/-- Every one of the 26 operations leaves the level, the rate, the padding mode and the initialised flag
of its engine alone, whatever its status (10 R21, R23, R28, R29; 41 R100). -/
def Obligations.OperationsKeepTheConfiguration : Prop :=
  ∀ (i : Instr) (v : OpView) (s t : State) (e e' : Engine), i.opView = some v → exec i s = .next t →
    s.engines[v.engine]? = some e → t.engines[v.engine]? = some e' →
    e'.securityLevel = e.securityLevel ∧ e'.rate = e.rate ∧ e'.padMode = e.padMode ∧ e'.initialized = e.initialized

/-- An operation that runs no permutation (no forced one, and its last byte short of the boundary) leaves
every byte outside the ones it frames and processes as it was: the bytes before the cursor, the rest of
the window, the pad bytes and the capacity (20 R41, R43). -/
def Obligations.OperationsWriteOnlyUnderTheCursor : Prop :=
  ∀ (i : Instr) (v : OpView) (s t : State) (e e' : Engine), i.opView = some v → exec i s = .next t →
    s.engines[v.engine]? = some e → t.engines[v.engine]? = some e' → e.Inv →
    (v.more = true ∨ v.flags.getLsbD 2 = false) →
    e.pos + (if v.more then 0 else 2) + v.len < e.rate →
    ∀ a, (a < e.pos ∨ e.pos + (if v.more then 0 else 2) + v.len ≤ a) → Memory.read e'.st a = Memory.read e.st a

/-! ### The checks of an OP -/

/-- An OP command in full, for all 26 operations: a command that passes its checks completes, with the
framing unless it continues, the open operation recorded, the primitive of its low code run, and the
status and output that follow (42 R135).  What the functions named here do is stated below.
That the six un-named codes are among them is the model's choice, log entry 12; that nothing is rolled
back and each command checks its own bytes after a bad tag is log entry 21. -/
def Obligations.AcceptedOperationsComplete : Prop :=
  ∀ (i : Instr) (v : OpView) (s : State) (e : Engine), i.opView = some v → s.engines[v.engine]? = some e → e.Ready →
    v.lengthsAgree → (v.more = true → v.flags = e.activeFlags) →
    ∃ x : Engine × List Byte,
      x = Engine.runPrim (paramF s.params) v.flags v.len v.din
        (if v.more then e else { e.beginOp (paramF s.params) v.flags with activeFlags := v.flags }) ∧
      exec i s = .next (s.completed v.engine x.1
        (if v.flags &&& 0x0F = 0x0D ∧ (∃ b ∈ x.2, b ≠ 0) then .authenticationError else .ok)
        (if v.flags &&& 0x0F = 0x0D then [] else x.2)) ∧
      x.1.activeFlags = v.flags

/-- While an engine is not initialised, every operation addressed to it and every CLONE from it ends with
ConfigurationError, whatever its flags and `more`, and writes nothing (42 R123; the spec's own decision
D16). -/
def Obligations.UninitialisedEnginesRefuse : Prop :=
  (∀ (i : Instr) (v : OpView) (s : State) (e : Engine), i.opView = some v → s.engines[v.engine]? = some e →
    e.initialized = false → exec i s = .next (s.responded .configurationError [])) ∧
  (∀ (src dst : Nat) (s : State) (e : Engine), s.engines[src]? = some e → e.initialized = false →
    exec (.clone src dst) s = .next (s.responded .configurationError []))

/-- A continuation whose flag byte differs from that of the open operation ends with
StreamingProtocolViolation and changes nothing, and no other command ends with that status (42 R129,
60 R203). -/
def Obligations.MismatchedContinuationsAreRefused : Prop :=
  (∀ (i : Instr) (v : OpView) (s : State) (e : Engine), i.opView = some v → s.engines[v.engine]? = some e →
    e.initialized = true → v.more = true → v.flags ≠ e.activeFlags →
    exec i s = .next (s.responded .streamingProtocolViolation [])) ∧
  (∀ (i : Instr) (s t : State) (dout : List Byte), exec i s = .next t →
    t.responses = s.responses ++ [⟨.streamingProtocolViolation, dout⟩] →
    ∃ (v : OpView) (e : Engine), i.opView = some v ∧ s.engines[v.engine]? = some e ∧ e.initialized = true ∧
      v.more = true ∧ v.flags ≠ e.activeFlags)

/-- The model's own stops (log entries 5 to 7; the spec gives no effect there): a command addressed to an
engine number with no engine, an input stream of another length than `len` once the checks have
passed, and an initialised engine whose cursor is outside its window, which no run reaches. -/
def Obligations.ModelStopsWhereTheSpecGivesNoEffect : Prop :=
  (∀ (i : Instr) (s : State), ¬ i.addressed s.engines.length → exec i s = .fault (.noSuchEngine i.writes)) ∧
  (∀ (i : Instr) (v : OpView) (s : State) (e : Engine), i.opView = some v → s.engines[v.engine]? = some e → e.Ready →
    (v.more = true → v.flags = e.activeFlags) → ¬ v.lengthsAgree →
    exec i s = .fault (.streamLength v.len v.din.length)) ∧
  (∀ (s : State) (t : Nat) (sec : BitVec 16) (len : Nat) (label : List Byte), t < s.engines.length →
    sec = 128 ∨ sec = 256 → label.length ≠ len →
    exec (.init t sec len label) s = .fault (.streamLength len label.length)) ∧
  (∀ (i : Instr) (v : OpView) (s : State) (e : Engine), i.opView = some v → s.engines[v.engine]? = some e →
    e.initialized = true → (v.more = true → v.flags = e.activeFlags) → (e.rate ≤ e.pos ∨ 198 < e.rate) →
    exec i s = .fault .cursorOutsideWindow)

/-! ### The permutation trigger and the cursor -/

/-- The padding injector XORs `pos_begin`, 0x04 and 0x80 into `st[pos]`, `st[pos+1]` and `st[rate+1]`,
accumulating where the indices coincide, and changes nothing else; in Padded mode `RunF` then permutes
all 200 bytes so padded and resets the cursor and `pos_begin` (40 R81). -/
def Obligations.PadInjectorXorsThreeBytes : Prop :=
  ∀ e : Engine, Memory.wf e.st = true → e.pos ≤ e.rate → e.rate + 1 < 200 →
    (∀ a, Memory.read e.padInject.st a = Memory.read e.st a ^^^ (if a = e.pos then BitVec.ofNat 8 e.posBegin else 0) ^^^
      (if a = e.pos + 1 then 0x04 else 0) ^^^ (if a = e.rate + 1 then 0x80 else 0)) ∧
    e.padInject = { e with st := e.padInject.st } ∧
    (∀ F : Config.Block → Config.Block, e.padMode = .padded → ∃ b : Config.Block,
      (∀ (a : Nat) (h : a < 200), b[a] = Memory.read e.padInject.st a) ∧
      (∀ (a : Nat) (h : a < 200), Memory.read (e.runF F).st a = (F b)[a]) ∧
      e.runF F = { e with st := (e.runF F).st, pos := 0, posBegin := 0 })

/-- `RunF`: in Padded mode the injector runs first, in Plain mode nothing is XORed; then all 200 bytes are
replaced by `F` of all 200, index for index, and `pos` and `pos_begin` become 0 (40 R80, R82; 20 R47). -/
def Obligations.PermutationTriggerReplacesTheBuffer : Prop :=
  ∀ (F : Config.Block → Config.Block) (e : Engine),
    (∃ b : Config.Block,
      (∀ (a : Nat) (h : a < 200), b[a] = Memory.read (if e.padMode = .padded then e.padInject else e).st a) ∧
      (∀ (a : Nat) (h : a < 200), Memory.read (e.runF F).st a = (F b)[a])) ∧
    (e.runF F) = { e with st := (e.runF F).st, pos := 0, posBegin := 0 } ∧ Memory.wf (e.runF F).st = true

/-- The cursor step: short of the boundary only the cursor moves; at the boundary the permutation fires at
once with `pos = rate`, so in Padded mode `pos_begin` goes into `st[rate]` and 0x84 into `st[rate+1]`,
and in Plain mode nothing does (40 R84, R81, R82). -/
def Obligations.CursorStepFiresAtTheBoundary : Prop :=
  ∀ (F : Config.Block → Config.Block) (e : Engine), Memory.wf e.st = true → e.rate + 1 < 200 →
    (e.pos + 1 < e.rate → e.advance F = { e with pos := e.pos + 1 }) ∧
    (e.pos + 1 = e.rate → ∃ b : Config.Block,
      (∀ (a : Nat) (h : a < 200), b[a] = Memory.read e.st a ^^^
        (if e.padMode = .padded ∧ a = e.rate then BitVec.ofNat 8 e.posBegin else 0) ^^^
        (if e.padMode = .padded ∧ a = e.rate + 1 then 0x84 else 0)) ∧
      (∀ (a : Nat) (h : a < 200), Memory.read (e.advance F).st a = (F b)[a]) ∧
      e.advance F = { e with st := (e.advance F).st, pos := 0, posBegin := 0 })

/-! ### The primitives -/

/-- Absorb, Overwrite and ZeroRun over bytes that fit the block: each state byte under the cursor takes
its new value, no other byte changes, and if the last byte of the window was among them the
permutation fires (41 R101, R102, R107). -/
def Obligations.InputPrimitivesInsideABlock : Prop :=
  ∀ (F : Config.Block → Config.Block) (data : List Byte) (e : Engine), Memory.wf e.st = true → e.pos < e.rate →
    e.rate ≤ 198 → e.pos + data.length ≤ e.rate →
    (∃ m, Memory.wf m = true ∧
      (∀ a, Memory.read m a = if e.pos ≤ a ∧ a < e.pos + data.length
        then Memory.read e.st a ^^^ data.getD (a - e.pos) 0 else Memory.read e.st a) ∧
      e.absorb F data = Engine.wrap F { e with st := m, pos := e.pos + data.length }) ∧
    (∃ m, Memory.wf m = true ∧
      (∀ a, Memory.read m a = if e.pos ≤ a ∧ a < e.pos + data.length
        then data.getD (a - e.pos) 0 else Memory.read e.st a) ∧
      e.overwrite F data = Engine.wrap F { e with st := m, pos := e.pos + data.length }) ∧
    (∃ m, Memory.wf m = true ∧
      (∀ a, Memory.read m a = if e.pos ≤ a ∧ a < e.pos + data.length then 0 else Memory.read e.st a) ∧
      e.zeroRun F data.length = Engine.wrap F { e with st := m, pos := e.pos + data.length })

/-- AbsorbAndSet, CopyState, Exchange and Squeeze over bytes that fit the block: the new state bytes and
the output bytes, the output taken from the state before any permutation (41 R100, R103 to R106). -/
def Obligations.OutputPrimitivesInsideABlock : Prop :=
  ∀ (F : Config.Block → Config.Block) (data : List Byte) (e : Engine), Memory.wf e.st = true → e.pos < e.rate →
    e.rate ≤ 198 → e.pos + data.length ≤ e.rate →
    (∃ m, Memory.wf m = true ∧
      (∀ a, Memory.read m a = if e.pos ≤ a ∧ a < e.pos + data.length
        then Memory.read e.st a ^^^ data.getD (a - e.pos) 0 else Memory.read e.st a) ∧
      (e.absorbAndSet F data).1 = Engine.wrap F { e with st := m, pos := e.pos + data.length } ∧
      (e.absorbAndSet F data).2 = (List.range data.length).map fun k => Memory.read e.st (e.pos + k) ^^^ data.getD k 0) ∧
    ((e.copyState F data.length).1 = Engine.wrap F { e with pos := e.pos + data.length } ∧
      (e.copyState F data.length).2 = (List.range data.length).map fun k => Memory.read e.st (e.pos + k)) ∧
    (∃ m, Memory.wf m = true ∧
      (∀ a, Memory.read m a = if e.pos ≤ a ∧ a < e.pos + data.length
        then data.getD (a - e.pos) 0 else Memory.read e.st a) ∧
      (e.exchange F data).1 = Engine.wrap F { e with st := m, pos := e.pos + data.length } ∧
      (e.exchange F data).2 = (List.range data.length).map fun k => data.getD k 0 ^^^ Memory.read e.st (e.pos + k)) ∧
    (∃ m, Memory.wf m = true ∧
      (∀ a, Memory.read m a = if e.pos ≤ a ∧ a < e.pos + data.length then 0 else Memory.read e.st a) ∧
      (e.squeeze F data.length).1 = Engine.wrap F { e with st := m, pos := e.pos + data.length } ∧
      (e.squeeze F data.length).2 = (List.range data.length).map fun k => Memory.read e.st (e.pos + k))

/-- The concatenation law: each primitive over `a ++ b`, or over `m + n`, is the primitive over the first
part and then over the second, with the outputs joined (41 R109, which the spec marks as derived). -/
def Obligations.PrimitivesObeyConcatenation : Prop :=
  ∀ (F : Config.Block → Config.Block) (a b : List Byte) (m n : Nat) (e : Engine), e.pos < e.rate →
    e.absorb F (a ++ b) = (e.absorb F a).absorb F b ∧
    e.overwrite F (a ++ b) = (e.overwrite F a).overwrite F b ∧
    (e.absorbAndSet F (a ++ b)).1 = ((e.absorbAndSet F a).1.absorbAndSet F b).1 ∧
    (e.absorbAndSet F (a ++ b)).2 = (e.absorbAndSet F a).2 ++ ((e.absorbAndSet F a).1.absorbAndSet F b).2 ∧
    (e.copyState F (m + n)).1 = ((e.copyState F m).1.copyState F n).1 ∧
    (e.copyState F (m + n)).2 = (e.copyState F m).2 ++ ((e.copyState F m).1.copyState F n).2 ∧
    (e.exchange F (a ++ b)).1 = ((e.exchange F a).1.exchange F b).1 ∧
    (e.exchange F (a ++ b)).2 = (e.exchange F a).2 ++ ((e.exchange F a).1.exchange F b).2 ∧
    (e.squeeze F (m + n)).1 = ((e.squeeze F m).1.squeeze F n).1 ∧
    (e.squeeze F (m + n)).2 = (e.squeeze F m).2 ++ ((e.squeeze F m).1.squeeze F n).2 ∧
    e.zeroRun F (m + n) = (e.zeroRun F m).zeroRun F n

/-- A primitive over `n` bytes from cursor `p` ends with the cursor at `(p + n) mod rate`, and with
`pos_begin` as it was if no permutation ran and 0 otherwise (41 R111, which the spec marks as
derived). -/
def Obligations.PrimitivesMoveTheCursorByTheirLength : Prop :=
  ∀ (F : Config.Block → Config.Block) (data : List Byte) (e : Engine), e.pos < e.rate →
    ∀ x ∈ [e.absorb F data, e.overwrite F data, (e.absorbAndSet F data).1, (e.copyState F data.length).1,
        (e.exchange F data).1, (e.squeeze F data.length).1, e.zeroRun F data.length],
      x.pos = (e.pos + data.length) % e.rate ∧
      x.posBegin = if e.pos + data.length < e.rate then e.posBegin else 0

/-- `ZeroRun(n)` has the same effect on the instance as `Overwrite` of `n` zero bytes, across any number
of blocks (41 R107, R108 item 1). -/
def Obligations.ZeroRunIsOverwriteOfZeros : Prop :=
  ∀ (F : Config.Block → Config.Block) (n : Nat) (e : Engine), e.pos < e.rate →
    e.zeroRun F n = e.overwrite F (List.replicate n 0x00)

/-- `CopyState(n)` has the effect and output of `AbsorbAndSet` of `n` zero bytes, and `Squeeze(n)` the
effect of `ZeroRun(n)`; the outputs of `Squeeze` and `CopyState` agree up to the first boundary
(41 R108 items 2 and 3). -/
def Obligations.CountedPrimitivesAsStreamPrimitives : Prop :=
  ∀ (F : Config.Block → Config.Block) (n : Nat) (e : Engine), e.pos < e.rate →
    e.copyState F n = e.absorbAndSet F (List.replicate n 0x00) ∧
    (e.squeeze F n).1 = e.zeroRun F n ∧
    (∀ k, e.pos + k ≤ e.rate → Memory.wf e.st = true → e.rate ≤ 198 →
      (e.squeeze F n).2.take k = (e.copyState F n).2.take k)

/-- Exchange undoes AbsorbAndSet: over the ciphertext, from the same state, it returns the plaintext and
ends in the same state (41 R108 item 4). -/
def Obligations.ExchangeUndoesAbsorbAndSet : Prop :=
  ∀ (F : Config.Block → Config.Block) (p : List Byte) (e : Engine),
    e.exchange F (e.absorbAndSet F p).2 = ((e.absorbAndSet F p).1, p)

/-- Over the tag that CopyState gave, Exchange outputs only zeros and leaves the state CopyState left;
over any other tag of the same length some output byte is nonzero (41 R108 item 5). -/
def Obligations.ExchangeDetectsAnAlteredTag : Prop :=
  ∀ (F : Config.Block → Config.Block) (n : Nat) (e : Engine),
    e.exchange F (e.copyState F n).2 = ((e.copyState F n).1, List.replicate n 0x00) ∧
    (∀ tag : List Byte, tag.length = n → tag ≠ (e.copyState F n).2 → orAll (e.exchange F tag).2 ≠ 0)

/-- The cursor, the operation start, the fields a primitive does not write and the number of output bytes
depend on the lengths and the starting cursor only, never on state or data bytes (41 R112, which the
spec marks as derived). -/
def Obligations.ControlIsIndependentOfData : Prop :=
  ∀ (i j : Instr) (v w : OpView) (s s' t t' : State) (e e' x x' : Engine) (r r' : Response),
    i.opView = some v → j.opView = some w → w = { v with din := w.din } → w.din.length = v.din.length →
    s.engines[v.engine]? = some e → s'.engines[v.engine]? = some e' → e' = { e with st := e'.st } →
    exec i s = .next t → exec j s' = .next t' →
    t.engines[v.engine]? = some x → t'.engines[v.engine]? = some x' →
    t.responses = s.responses ++ [r] → t'.responses = s'.responses ++ [r'] →
    x' = { x with st := x'.st } ∧ r'.dout.length = r.dout.length ∧
      (v.flags &&& 0x0F ≠ 0x0D → r'.status = r.status)

/-! ### Framing -/

/-- The low code selects the primitive by the 16 rows of R68, the exchange of 0x0D alone with its output
withheld; M has no part in it.  The table is total by the spec's own decision D11. -/
def Obligations.DispatchFollowsTheTable : Prop :=
  (List.range 16).map (fun c => primOf (BitVec.ofNat 8 c)) =
    [.absorb, .absorb, .absorb, .absorb, .zeroRun, .overwrite, .overwrite, .squeeze,
     .absorb, .absorb, .absorb, .absorb, .copyState, .exchange, .absorbAndSet, .exchange] ∧
  ∀ flags : Byte, primOf flags = primOf (flags &&& 0x0F) ∧ primOf (flags ^^^ 0x10) = primOf flags ∧
    (withheld flags = true ↔ flags &&& 0x0F = 0x0D)

/-- The framed byte of every operation with T, by role, and of every operation without; an Undecided
engine takes the role first, so its first transport operation is framed with I clear (42 R125, 43
R178, which the spec derives from R125; that the deciding operation is adjusted too is its decision D9). -/
def Obligations.FramedBytesByRole : Prop :=
  (∀ p ∈ [((0x08 : Byte), (0x09 : Byte)), (0x09, 0x08), (0x0A, 0x0B), (0x0B, 0x0A), (0x0C, 0x0D), (0x0D, 0x0C),
      (0x0E, 0x0F), (0x0F, 0x0E)],
    framedFlags p.1 .initiator = p.1 ∧ framedFlags p.1 .responder = p.2 ∧
    framedFlags (p.1 ||| 0x10) .initiator = p.1 ||| 0x10 ∧ framedFlags (p.1 ||| 0x10) .responder = p.2 ||| 0x10) ∧
  (∀ flags : Byte, flags.getLsbD 3 = false → ∀ role, framedFlags flags role = flags) ∧
  (∀ flags : Byte, flags.getLsbD 3 = true →
    decideRole flags .undecided = (if flags.getLsbD 0 then .responder else .initiator) ∧
    (framedFlags flags (decideRole flags .undecided)).getLsbD 0 = false)

/-- The role is decided by the first opening OP with T, Responder if I is set and Initiator if not, and
is written by no other operation: not without T, not on a continuation, and never again once
decided (42 R124; 10 R26). -/
def Obligations.RoleIsDecidedOnceByATransportOperation : Prop :=
  ∀ (i : Instr) (v : OpView) (s t : State) (e e' : Engine) (r : Response), i.opView = some v → exec i s = .next t →
    s.engines[v.engine]? = some e → t.engines[v.engine]? = some e' → t.responses = s.responses ++ [r] →
    e'.role = if v.more = false ∧ v.flags.getLsbD 3 = true ∧ e.role = .undecided ∧
        (r.status = .ok ∨ r.status = .authenticationError)
      then (if v.flags.getLsbD 0 then .responder else .initiator) else e.role

/-- The two framing bytes, for an operation without C, in the three places the cursor can stand: both
inside the block; the second on the last byte of the window, whose permutation carries the new
`pos_begin`; the first on the last byte, the second opening the next block (42 R126). -/
def Obligations.FramingAbsorbsTwoBytes : Prop :=
  ∀ (F : Config.Block → Config.Block) (flags : Byte) (e x : Engine) (ff : Byte), Memory.wf e.st = true →
    e.padMode = .padded → e.pos < e.rate → 2 < e.rate → e.rate ≤ 198 → flags &&& 0x24 = 0 →
    x = e.beginOp F flags → ff = framedFlags flags (decideRole flags e.role) →
    x = { e with st := x.st, pos := x.pos, posBegin := x.posBegin, role := decideRole flags e.role } ∧
    (if e.pos + 2 < e.rate then
      x.pos = e.pos + 2 ∧ x.posBegin = e.pos + 1 ∧
      (∀ a, Memory.read x.st a = Memory.read e.st a ^^^ (if a = e.pos then BitVec.ofNat 8 e.posBegin else 0) ^^^
        (if a = e.pos + 1 then ff else 0))
    else if e.pos + 2 = e.rate then
      x.pos = 0 ∧ x.posBegin = 0 ∧ ∃ b : Config.Block,
      (∀ (a : Nat) (h : a < 200), b[a] = Memory.read e.st a ^^^ (if a = e.pos then BitVec.ofNat 8 e.posBegin else 0) ^^^
        (if a = e.pos + 1 then ff else 0) ^^^ (if a = e.rate then BitVec.ofNat 8 (e.rate - 1) else 0) ^^^
        (if a = e.rate + 1 then 0x84 else 0)) ∧
      (∀ (a : Nat) (h : a < 200), Memory.read x.st a = (F b)[a])
    else
      x.pos = 1 ∧ x.posBegin = 0 ∧ ∃ b : Config.Block,
      (∀ (a : Nat) (h : a < 200), b[a] = Memory.read e.st a ^^^ (if a = e.pos then BitVec.ofNat 8 e.posBegin else 0) ^^^
        (if a = e.rate then BitVec.ofNat 8 e.rate else 0) ^^^ (if a = e.rate + 1 then 0x84 else 0)) ∧
      (∀ (a : Nat) (h : a < 200), Memory.read x.st a = (F b)[a] ^^^ (if a = 0 then ff else 0)))

/-- Begin-operation framing with C ends at the start of a fresh block; where the framing bytes fit inside
the block, the forced permutation sees them and the pad bytes `pos + 1`, 0x04 and 0x80 (42 R127). -/
def Obligations.ConfidentialOperationsStartAFreshBlock : Prop :=
  ∀ (F : Config.Block → Config.Block) (flags : Byte) (e x : Engine) (ff : Byte), Memory.wf e.st = true →
    e.padMode = .padded → e.pos < e.rate → 2 < e.rate → e.rate ≤ 198 → flags.getLsbD 2 = true →
    x = e.beginOp F flags → ff = framedFlags flags (decideRole flags e.role) →
    x = { e with st := x.st, pos := 0, posBegin := 0, role := decideRole flags e.role } ∧
    (e.pos + 2 < e.rate → ∃ b : Config.Block,
      (∀ (a : Nat) (h : a < 200), b[a] = Memory.read e.st a ^^^ (if a = e.pos then BitVec.ofNat 8 e.posBegin else 0) ^^^
        (if a = e.pos + 1 then ff else 0) ^^^ (if a = e.pos + 2 then BitVec.ofNat 8 (e.pos + 1) else 0) ^^^
        (if a = e.pos + 3 then 0x04 else 0) ^^^ (if a = e.rate + 1 then 0x80 else 0)) ∧
      (∀ (a : Nat) (h : a < 200), Memory.read x.st a = (F b)[a])) ∧
    (e.pos + 2 = e.rate → x = (e.negotiate flags).frameBytes F ff)

/-- Streaming equivalence: an operation over `a ++ b` (or `m + n` bytes) and the same operation over the
first part followed by a continuation over the second leave the same engines, give the same output
bytes, and succeed alike, for every operation kind (42 R136).  The clause on the status of a split tag rests on
log entry 21 (each chunk is checked on its own, the spec's decision D13), and that the un-named codes
execute on log entry 12, both choices. -/
def Obligations.StreamingEquivalence : Prop :=
  ∀ (whole first second : Instr) (f : Byte) (k m n : Nat) (more : Bool) (a b : List Byte) (s : State) (e : Engine),
    whole.opView = some ⟨f, k, more, m + n, a ++ b⟩ → first.opView = some ⟨f, k, more, m, a⟩ →
    second.opView = some ⟨f, k, true, n, b⟩ → (takesInput (primOf f) = true → a.length = m ∧ b.length = n) →
    s.engines[k]? = some e → e.Ready → (more = true → f = e.activeFlags) →
    ∃ (e1 e2 : Engine) (r r1 r2 : Response),
      exec whole s = .next (s.completed k e2 r.status r.dout) ∧
      exec first s = .next (s.completed k e1 r1.status r1.dout) ∧
      exec second (s.completed k e1 r1.status r1.dout) =
        .next ((s.completed k e1 r1.status r1.dout).completed k e2 r2.status r2.dout) ∧
      r.dout = r1.dout ++ r2.dout ∧ (r.status = .ok ↔ r1.status = .ok ∧ r2.status = .ok)

/-- Zero-length operations: an opening one still runs the framing and records the flag byte; a
continuation changes nothing at all; both answer OK, recvMAC of an empty tag among them (42 R137, which
the spec marks as derived; that the un-named codes execute is the model's choice, log entry 12). -/
def Obligations.ZeroLengthOperations : Prop :=
  ∀ (i : Instr) (f : Byte) (k : Nat) (s : State) (e : Engine), s.engines[k]? = some e → e.Ready →
    (i.opView = some ⟨f, k, false, 0, []⟩ →
      exec i s = .next (s.completed k { e.beginOp (paramF s.params) f with activeFlags := f } .ok [])) ∧
    (i.opView = some ⟨f, k, true, 0, []⟩ → f = e.activeFlags → exec i s = .next (s.responded .ok []))

/-! ### The operations, one by one -/

/-- AD, metaAD, OP.00, OP.01 and OP.03: framed with the flag byte as issued in every role, no forced
permutation, no change of role, then the input absorbed (43 R151, R162).  That OP.00, OP.01 and OP.03 complete is
the model's choice, log entry 12 (ADMIT_UNNAMED, D11: a model may refuse them); admitted, they mean what
43 R172 to R174 say. -/
def Obligations.AbsorbWithoutTransport : Prop :=
  ∀ (a : StreamOp) (i : Instr) (flags : Byte) (s : State) (e : Engine),
    (i, flags) ∈ [(Instr.ad a, (0x02 : Byte)), (.metaAD a, 0x12), (.op00 false a, 0x00), (.op00 true a, 0x10),
      (.op01 false a, 0x01), (.op01 true a, 0x11), (.op03 false a, 0x03), (.op03 true a, 0x13)] →
    s.engines[a.engine]? = some e → e.Ready → a.din.length = a.len → (a.more = true → flags = e.activeFlags) →
    ∃ x : Engine, exec i s = .next (s.completed a.engine x .ok []) ∧
      x = { Engine.absorb (paramF s.params) a.din (if a.more then e else e.beginOp (paramF s.params) flags) with
        activeFlags := flags } ∧
      x.role = e.role ∧
      (e.pos + (if a.more then 0 else 2) + a.len < e.rate →
        x.pos = e.pos + (if a.more then 0 else 2) + a.len ∧ x.posBegin = (if a.more then e.posBegin else e.pos + 1) ∧
        ∀ p, Memory.read x.st p = Memory.read e.st p ^^^
          (if a.more = false ∧ p = e.pos then BitVec.ofNat 8 e.posBegin else 0) ^^^
          (if a.more = false ∧ p = e.pos + 1 then flags else 0) ^^^
          (if e.pos + (if a.more then 0 else 2) ≤ p then a.din.getD (p - (e.pos + (if a.more then 0 else 2))) 0 else 0))

/-- sendCLR, recvCLR, their meta variants, OP.08 and OP.09: the role is decided if it was not, the flag
byte is framed with I inverted for a Responder, no forced permutation, then the input absorbed
(43 R153, R154, R164, R165).  That OP.08 and OP.09 complete is the model's choice, log entry 12
(ADMIT_UNNAMED, D11: a model may refuse them); admitted, they mean what 43 R176 and R177 say. -/
def Obligations.AbsorbWithTransport : Prop :=
  ∀ (a : StreamOp) (i : Instr) (flags : Byte) (taken : Role) (s : State) (e : Engine),
    (i, flags, taken) ∈ [(Instr.sendCLR a, (0x0A : Byte), Role.initiator), (.metaSendCLR a, 0x1A, .initiator),
      (.recvCLR a, 0x0B, .responder), (.metaRecvCLR a, 0x1B, .responder), (.op08 false a, 0x08, .initiator),
      (.op08 true a, 0x18, .initiator), (.op09 false a, 0x09, .responder), (.op09 true a, 0x19, .responder)] →
    s.engines[a.engine]? = some e → e.Ready → a.din.length = a.len → (a.more = true → flags = e.activeFlags) →
    ∃ x : Engine, exec i s = .next (s.completed a.engine x .ok []) ∧
      x = { Engine.absorb (paramF s.params) a.din (if a.more then e else e.beginOp (paramF s.params) flags) with
        activeFlags := flags } ∧
      x.role = (if a.more = false ∧ e.role = .undecided then taken else e.role) ∧
      (e.pos + (if a.more then 0 else 2) + a.len < e.rate →
        x.pos = e.pos + (if a.more then 0 else 2) + a.len ∧ x.posBegin = (if a.more then e.posBegin else e.pos + 1) ∧
        ∀ p, Memory.read x.st p = Memory.read e.st p ^^^
          (if a.more = false ∧ p = e.pos then BitVec.ofNat 8 e.posBegin else 0) ^^^
          (if a.more = false ∧ p = e.pos + 1 then (if x.role = .responder then flags ^^^ 0x01 else flags) else 0) ^^^
          (if e.pos + (if a.more then 0 else 2) ≤ p then a.din.getD (p - (e.pos + (if a.more then 0 else 2))) 0 else 0))

/-- KEY, metaKEY and OP.05: framing with the flag byte as issued, the forced permutation, then the input
replaces state bytes; nothing is output and the role is untouched (43 R152, R163).  That OP.05
completes is the model's choice, log entry 12 (ADMIT_UNNAMED, D11: a model may refuse it); admitted, it
means what 43 R175 says. -/
def Obligations.OverwriteOperations : Prop :=
  ∀ (a : StreamOp) (i : Instr) (flags : Byte) (s : State) (e o : Engine),
    (i, flags) ∈ [(Instr.key a, (0x06 : Byte)), (.metaKEY a, 0x16), (.op05 false a, 0x05), (.op05 true a, 0x15)] →
    s.engines[a.engine]? = some e → e.Ready → a.din.length = a.len → (a.more = true → flags = e.activeFlags) →
    o = (if a.more then e else e.beginOp (paramF s.params) flags) →
    ∃ x : Engine, exec i s = .next (s.completed a.engine x .ok []) ∧
      x = { o.overwrite (paramF s.params) a.din with activeFlags := flags } ∧ x.role = e.role ∧
      (a.more = false → o.pos = 0 ∧ o.posBegin = 0) ∧
      (o.pos + a.len < e.rate → x.pos = o.pos + a.len ∧ x.posBegin = o.posBegin ∧
        ∀ p, Memory.read x.st p =
          if o.pos ≤ p ∧ p < o.pos + a.len then a.din.getD (p - o.pos) 0 else Memory.read o.st p)

/-- sendENC and metaSendENC: the ciphertext is the input XOR the state bytes under the cursor, and the
state then holds the ciphertext (43 R155, R166). -/
def Obligations.SendEncOutputsCiphertext : Prop :=
  ∀ (a : StreamOp) (i : Instr) (flags : Byte) (s : State) (e o : Engine),
    (i, flags) ∈ [(Instr.sendENC a, (0x0E : Byte)), (.metaSendENC a, 0x1E)] →
    s.engines[a.engine]? = some e → e.Ready → a.din.length = a.len → (a.more = true → flags = e.activeFlags) →
    o = (if a.more then e else e.beginOp (paramF s.params) flags) →
    ∃ (x : Engine) (ct : List Byte), exec i s = .next (s.completed a.engine x .ok ct) ∧
      x = { (o.absorbAndSet (paramF s.params) a.din).1 with activeFlags := flags } ∧
      ct = (o.absorbAndSet (paramF s.params) a.din).2 ∧ ct.length = a.len ∧
      x.role = (if a.more = false ∧ e.role = .undecided then .initiator else e.role) ∧
      (a.more = false → o.pos = 0 ∧ o.posBegin = 0) ∧
      (∀ k, k < a.len → o.pos + k < e.rate → ct.getD k 0 = Memory.read o.st (o.pos + k) ^^^ a.din.getD k 0) ∧
      (o.pos + a.len < e.rate → x.pos = o.pos + a.len ∧ x.posBegin = o.posBegin ∧
        ∀ p, Memory.read x.st p =
          if o.pos ≤ p ∧ p < o.pos + a.len then ct.getD (p - o.pos) 0 else Memory.read o.st p)

/-- recvENC and metaRecvENC: the plaintext is the input XOR the state bytes under the cursor, and the
state then holds the input, the ciphertext (43 R156, R167). -/
def Obligations.RecvEncOutputsPlaintext : Prop :=
  ∀ (a : StreamOp) (i : Instr) (flags : Byte) (s : State) (e o : Engine),
    (i, flags) ∈ [(Instr.recvENC a, (0x0F : Byte)), (.metaRecvENC a, 0x1F)] →
    s.engines[a.engine]? = some e → e.Ready → a.din.length = a.len → (a.more = true → flags = e.activeFlags) →
    o = (if a.more then e else e.beginOp (paramF s.params) flags) →
    ∃ (x : Engine) (pt : List Byte), exec i s = .next (s.completed a.engine x .ok pt) ∧
      x = { (o.exchange (paramF s.params) a.din).1 with activeFlags := flags } ∧
      pt = (o.exchange (paramF s.params) a.din).2 ∧ pt.length = a.len ∧
      x.role = (if a.more = false ∧ e.role = .undecided then .responder else e.role) ∧
      (a.more = false → o.pos = 0 ∧ o.posBegin = 0) ∧
      (∀ k, k < a.len → o.pos + k < e.rate → pt.getD k 0 = a.din.getD k 0 ^^^ Memory.read o.st (o.pos + k)) ∧
      (o.pos + a.len < e.rate → x.pos = o.pos + a.len ∧ x.posBegin = o.posBegin ∧
        ∀ p, Memory.read x.st p =
          if o.pos ≤ p ∧ p < o.pos + a.len then a.din.getD (p - o.pos) 0 else Memory.read o.st p)

/-- sendMAC and metaSendMAC: the tag is the state bytes under the cursor, which stay as they are
(43 R157, R168). -/
def Obligations.SendMacCopiesTheState : Prop :=
  ∀ (a : CountOp) (i : Instr) (flags : Byte) (s : State) (e o : Engine),
    (i, flags) ∈ [(Instr.sendMAC a, (0x0C : Byte)), (.metaSendMAC a, 0x1C)] →
    s.engines[a.engine]? = some e → e.Ready → (a.more = true → flags = e.activeFlags) →
    o = (if a.more then e else e.beginOp (paramF s.params) flags) →
    ∃ (x : Engine) (tag : List Byte), exec i s = .next (s.completed a.engine x .ok tag) ∧
      x = { (o.copyState (paramF s.params) a.len).1 with activeFlags := flags } ∧
      tag = (o.copyState (paramF s.params) a.len).2 ∧ tag.length = a.len ∧
      x.role = (if a.more = false ∧ e.role = .undecided then .initiator else e.role) ∧
      (a.more = false → o.pos = 0 ∧ o.posBegin = 0) ∧
      (∀ k, k < a.len → o.pos + k < e.rate → tag.getD k 0 = Memory.read o.st (o.pos + k)) ∧
      (o.pos + a.len < e.rate → x.pos = o.pos + a.len ∧ x.posBegin = o.posBegin ∧ x.st = o.st)

/-- recvMAC and metaRecvMAC: the whole tag goes through the exchange, nothing is output, and the status is
AuthenticationError exactly when some exchange output is nonzero; in both outcomes the state holds the
tag given (43 R158, R159, R169; 60 R208).  That nothing is rolled back and each
command checks its own bytes is log entry 21 (the spec's decision D13). -/
def Obligations.RecvMacChecksTheWholeTag : Prop :=
  ∀ (a : StreamOp) (i : Instr) (flags : Byte) (s : State) (e o : Engine),
    (i, flags) ∈ [(Instr.recvMAC a, (0x0D : Byte)), (.metaRecvMAC a, 0x1D)] →
    s.engines[a.engine]? = some e → e.Ready → a.din.length = a.len → (a.more = true → flags = e.activeFlags) →
    o = (if a.more then e else e.beginOp (paramF s.params) flags) →
    ∃ (x : Engine) (status : Status), exec i s = .next (s.completed a.engine x status []) ∧
      x = { (o.exchange (paramF s.params) a.din).1 with activeFlags := flags } ∧
      (status = .ok ↔ ∀ b ∈ (o.exchange (paramF s.params) a.din).2, b = 0) ∧
      (status = .authenticationError ↔ ∃ b ∈ (o.exchange (paramF s.params) a.din).2, b ≠ 0) ∧
      x.role = (if a.more = false ∧ e.role = .undecided then .responder else e.role) ∧
      (a.more = false → o.pos = 0 ∧ o.posBegin = 0) ∧
      (o.pos + a.len ≤ e.rate →
        (status = .ok ↔ ∀ k, k < a.len → a.din.getD k 0 = Memory.read o.st (o.pos + k))) ∧
      (o.pos + a.len < e.rate → x.pos = o.pos + a.len ∧ x.posBegin = o.posBegin ∧
        ∀ p, Memory.read x.st p =
          if o.pos ≤ p ∧ p < o.pos + a.len then a.din.getD (p - o.pos) 0 else Memory.read o.st p)

/-- PRF and metaPRF: the state bytes under the cursor are output and then cleared; the role is untouched
(43 R160, R170). -/
def Obligations.PrfSqueezesTheState : Prop :=
  ∀ (a : CountOp) (i : Instr) (flags : Byte) (s : State) (e o : Engine),
    (i, flags) ∈ [(Instr.prf a, (0x07 : Byte)), (.metaPRF a, 0x17)] →
    s.engines[a.engine]? = some e → e.Ready → (a.more = true → flags = e.activeFlags) →
    o = (if a.more then e else e.beginOp (paramF s.params) flags) →
    ∃ (x : Engine) (out : List Byte), exec i s = .next (s.completed a.engine x .ok out) ∧
      x = { (o.squeeze (paramF s.params) a.len).1 with activeFlags := flags } ∧
      out = (o.squeeze (paramF s.params) a.len).2 ∧ out.length = a.len ∧ x.role = e.role ∧
      (a.more = false → o.pos = 0 ∧ o.posBegin = 0) ∧
      (∀ k, k < a.len → o.pos + k < e.rate → out.getD k 0 = Memory.read o.st (o.pos + k)) ∧
      (o.pos + a.len < e.rate → x.pos = o.pos + a.len ∧ x.posBegin = o.posBegin ∧
        ∀ p, Memory.read x.st p = if o.pos ≤ p ∧ p < o.pos + a.len then 0 else Memory.read o.st p)

/-- RATCHET and metaRATCHET: no stream either way, the role untouched; the state bytes under the cursor are
cleared, and after an opening call of any length the leading `len mod rate` bytes are zero (43 R161,
R171, R186). -/
def Obligations.RatchetErasesTheState : Prop :=
  ∀ (a : CountOp) (i : Instr) (flags : Byte) (s : State) (e o : Engine),
    (i, flags) ∈ [(Instr.ratchet a, (0x04 : Byte)), (.metaRATCHET a, 0x14)] →
    s.engines[a.engine]? = some e → e.Ready → (a.more = true → flags = e.activeFlags) →
    o = (if a.more then e else e.beginOp (paramF s.params) flags) →
    ∃ x : Engine, exec i s = .next (s.completed a.engine x .ok []) ∧
      x = { o.zeroRun (paramF s.params) a.len with activeFlags := flags } ∧ x.role = e.role ∧
      (a.more = false → o.pos = 0 ∧ o.posBegin = 0 ∧ x.pos = a.len % e.rate ∧
        ∀ p, p < a.len % e.rate → Memory.read x.st p = 0) ∧
      (o.pos + a.len < e.rate → x.pos = o.pos + a.len ∧ x.posBegin = o.posBegin ∧
        ∀ p, Memory.read x.st p = if o.pos ≤ p ∧ p < o.pos + a.len then 0 else Memory.read o.st p)

/-! ### Two parties -/

/-- Cleartext in one direction: two engines in the same duplex state, in matching roles, that send and
receive the same bytes end in the same duplex state (42 R139). -/
def Obligations.CleartextKeepsTranscriptsEqual : Prop :=
  ∀ (s : State) (a b : Nat) (ea eb : Engine) (d : List Byte) (send recv : Instr),
    (send, recv) ∈ [(Instr.sendCLR ⟨a, false, d.length, d⟩, Instr.recvCLR ⟨b, false, d.length, d⟩),
      (.metaSendCLR ⟨a, false, d.length, d⟩, .metaRecvCLR ⟨b, false, d.length, d⟩)] →
    a ≠ b → s.engines[a]? = some ea → s.engines[b]? = some eb → ea.Ready → eb.Ready → ea.SameDuplex eb →
    RolesMatch ea.role eb.role →
    ∃ xa xb : Engine, exec send s = .next (s.completed a xa .ok []) ∧
      exec recv (s.completed a xa .ok []) = .next ((s.completed a xa .ok []).completed b xb .ok []) ∧
      xa.SameDuplex xb

/-- Round trip: what one party encrypts the other, in the same duplex state and matching role, decrypts to
the original plaintext, and both end in the same duplex state (43 R184, 42 R139). -/
def Obligations.EncryptionRoundTrip : Prop :=
  ∀ (s : State) (a b : Nat) (ea eb : Engine) (pt : List Byte) (send : Instr) (recv : List Byte → Instr),
    (send = .sendENC ⟨a, false, pt.length, pt⟩ ∧ recv = fun ct => .recvENC ⟨b, false, ct.length, ct⟩) ∨
      (send = .metaSendENC ⟨a, false, pt.length, pt⟩ ∧ recv = fun ct => .metaRecvENC ⟨b, false, ct.length, ct⟩) →
    a ≠ b → s.engines[a]? = some ea → s.engines[b]? = some eb → ea.Ready → eb.Ready → ea.SameDuplex eb →
    RolesMatch ea.role eb.role →
    ∃ (xa xb : Engine) (ct : List Byte), ct.length = pt.length ∧
      exec send s = .next (s.completed a xa .ok ct) ∧
      exec (recv ct) (s.completed a xa .ok ct) = .next ((s.completed a xa .ok ct).completed b xb .ok pt) ∧
      xa.SameDuplex xb

/-- MAC soundness: the tag one party sends is accepted by the other in the same duplex state and matching
role, which then ends in the sender's duplex state; any other tag of the same length, whatever bits
differ, is answered with AuthenticationError (43 R185, 42 R139). -/
def Obligations.MacAcceptsExactlyTheTag : Prop :=
  ∀ (s : State) (a b n : Nat) (ea eb : Engine) (send : Instr) (recv : List Byte → Instr),
    (send = .sendMAC ⟨a, false, n⟩ ∧ recv = fun tag => .recvMAC ⟨b, false, tag.length, tag⟩) ∨
      (send = .metaSendMAC ⟨a, false, n⟩ ∧ recv = fun tag => .metaRecvMAC ⟨b, false, tag.length, tag⟩) →
    a ≠ b → s.engines[a]? = some ea → s.engines[b]? = some eb → ea.Ready → eb.Ready → ea.SameDuplex eb →
    RolesMatch ea.role eb.role →
    ∃ (xa xb : Engine) (tag : List Byte), tag.length = n ∧ exec send s = .next (s.completed a xa .ok tag) ∧
      exec (recv tag) (s.completed a xa .ok tag) = .next ((s.completed a xa .ok tag).completed b xb .ok []) ∧
      xa.SameDuplex xb ∧
      (∀ bad : List Byte, bad.length = n → bad ≠ tag → ∃ y : Engine,
        exec (recv bad) (s.completed a xa .ok tag) =
          .next ((s.completed a xa .ok tag).completed b y .authenticationError []))

/-! ### INIT, CLONE, RESET -/

/-- INIT with a level that is neither 128 nor 256 ends with ConfigurationError and changes nothing: an
engine that was initialised stays so (40 R88). -/
def Obligations.InitRefusesOtherLevels : Prop :=
  ∀ (s : State) (t : Nat) (sec : BitVec 16) (len : Nat) (label : List Byte), t < s.engines.length → sec ≠ 128 →
    sec ≠ 256 → exec (.init t sec len label) s = .next (s.responded .configurationError [])

/-- INIT with level 128 or 256, on any engine in any state, gives the state of R94: with `R = 198 - sec/4`
and `G` the plain permutation of the header followed by zeros, the role Undecided, the open flag byte
0x12, the cursor at `(2 + L) mod R`, and for a label that fits the block `G` with 0x12 at index 1 and
the label from index 2 on XORed in (40 R88 to R94, 10 R34). -/
def Obligations.InitGivesTheInitialState : Prop :=
  ∀ (s : State) (t : Nat) (sec : BitVec 16) (label : List Byte), t < s.engines.length → sec = 128 ∨ sec = 256 →
    s.params.separator.length ≤ 31 →
    ∃ (e : Engine) (header G : Config.Block),
      exec (.init t sec label.length label) s = .next (s.completed t e .ok []) ∧
      (∀ (a : Nat) (h : a < 200), header[a] =
        ([0x01, BitVec.ofNat 8 (200 - sec.toNat / 4), 0x01, 0x00, 0x01, BitVec.ofNat 8 (8 * s.params.separator.length)]
          ++ s.params.separator).getD a 0) ∧
      G = paramF s.params header ∧
      e.securityLevel = (if sec = 128 then .bits128 else .bits256) ∧ e.rate = 198 - sec.toNat / 4 ∧
      e.role = .undecided ∧ e.activeFlags = 0x12 ∧ e.padMode = .padded ∧ e.initialized = true ∧
      e.pos = (2 + label.length) % e.rate ∧ e.posBegin = (if 2 + label.length < e.rate then 1 else 0) ∧
      (2 + label.length < e.rate → ∀ (a : Nat) (h : a < 200), Memory.read e.st a = G[a] ^^^
        (if a = 1 then 0x12 else 0) ^^^ (if 2 ≤ a then label.getD (a - 2) 0 else 0))

/-- INIT is a fresh construction: what the engine held before has no influence on what it holds after
(40 R89, 70 R224; the spec's own decision D18). -/
def Obligations.InitForgetsTheOldLifetime : Prop :=
  ∀ (s s' x x' : State) (t len : Nat) (sec : BitVec 16) (label : List Byte), sec = 128 ∨ sec = 256 →
    s'.params = s.params → exec (.init t sec len label) s = .next x → exec (.init t sec len label) s' = .next x' →
    x'.engines[t]? = x.engines[t]? ∧ (x.engines[t]?).isSome = true

/-- The label is an open metaAD operation: INIT with the label `a ++ b` leaves the engine that INIT with
`a` and a continuation `metaAD b` leave (40 R93, 42 R129). -/
def Obligations.LabelIsAnOpenOperation : Prop :=
  ∀ (s : State) (t : Nat) (sec : BitVec 16) (a b : List Byte), t < s.engines.length → sec = 128 ∨ sec = 256 →
    ∃ e1 e2 : Engine, exec (.init t sec (a ++ b).length (a ++ b)) s = .next (s.completed t e2 .ok []) ∧
      exec (.init t sec a.length a) s = .next (s.completed t e1 .ok []) ∧
      exec (.metaAD ⟨t, true, b.length, b⟩) (s.completed t e1 .ok []) =
        .next ((s.completed t e1 .ok []).completed t e2 .ok [])

/-- RESET of an engine that exists always completes and leaves every field of it at the reset value, all
200 bytes zero, as the hardware reset input does; its word is 0x0600 (43 R181, the spec's own decision
D20).  That engine `t` alone changes is the model's reading, log entry 16 (DEDUCED from R181, R35 and
R225), where 70 R220 speaks of every instance and the hardware reset input clears all. -/
def Obligations.ResetCommandClearsTheEngine : Prop :=
  ∀ (s : State) (t : Nat), t < s.engines.length →
    (encode (.reset t)).word = 0x0600 ∧
    ∃ e : Engine, exec (.reset t) s = .next (s.completed t e .ok []) ∧
      s.hardwareReset.engines[t]? = some e ∧ e ∈ State.reset.engines ∧
      e.securityLevel = .unset ∧ (∀ a, Memory.read e.st a = 0) ∧ e.rate = 0 ∧ e.pos = 0 ∧ e.posBegin = 0 ∧
      e.role = .undecided ∧ e.activeFlags = 0 ∧ e.padMode = .plain ∧ e.initialized = false

/-- CLONE makes every field of the destination that of the source, whatever the destination held, and
leaves the source alone; it is refused, with nothing changed, when there are fewer than two engines, a
number is out of range, the two are equal, or the source is not initialised (43 R182; the refusals are
the spec's own decision D19). -/
def Obligations.CloneCopiesEveryField : Prop :=
  ∀ (s : State) (src dst : Nat),
    (∀ e, s.engines[src]? = some e → dst < s.engines.length → src ≠ dst → e.initialized = true →
      ∃ t, exec (.clone src dst) s = .next t ∧ t = s.completed dst e .ok [] ∧ t.engines[dst]? = some e ∧
        t.engines[src]? = some e) ∧
    ((s.engines.length < 2 ∨ s.engines.length ≤ src ∨ s.engines.length ≤ dst ∨ src = dst ∨
        (∃ e, s.engines[src]? = some e ∧ e.initialized = false)) →
      exec (.clone src dst) s = .next (s.responded .configurationError []))
end

