-- ==== Sys2Proof/Laws/Encoding.lean ====
section
/-!
SUPPORT. The laws of the command word: its fields are the ones it was made of, a word with bits [15:11] zero
is made of its fields, and what the decoder reads for each of the 32 flag bytes without a reserved bit.
-/

namespace Sys2Proof

/-- The fields of a word are the ones it was made of (R63). -/
@[simp] theorem makeWord_zero (k : BitVec 2) (m : Bool) (f : Byte) : CmdWord.zero (makeWord k m f) = 0 := by
  revert k m f; decide +kernel

@[simp] theorem makeWord_kind (k : BitVec 2) (m : Bool) (f : Byte) : CmdWord.kind (makeWord k m f) = k := by
  revert k m f; decide +kernel

@[simp] theorem makeWord_flags (k : BitVec 2) (m : Bool) (f : Byte) : CmdWord.flags (makeWord k m f) = f := by
  revert k m f; decide +kernel

@[simp] theorem makeWord_more (k : BitVec 2) (m : Bool) (f : Byte) : CmdWord.more (makeWord k m f) = m := by
  revert k m f; decide +kernel

theorem makeWord_of_eleven_bits (k : BitVec 11) :
    makeWord (CmdWord.kind (k.zeroExtend 16)) (CmdWord.more (k.zeroExtend 16)) (CmdWord.flags (k.zeroExtend 16)) =
      k.zeroExtend 16 := by
  revert k; decide +kernel

/-- A word whose reserved field is zero is its own low eleven bits. -/
theorem CmdWord.eq_zeroExtend {w : CmdWord} (h : CmdWord.zero w = 0) : w = (w.extractLsb' 0 11).zeroExtend 16 := by
  apply BitVec.eq_of_getLsbD_eq
  intro i hi
  by_cases h1 : i < 11
  · simp [h1, hi]
  · have h2 := congrArg (fun z : BitVec 5 => z.getLsbD (i - 11)) h
    simp only [CmdWord.zero, BitVec.getLsbD_extractLsb', show i - 11 < 5 by omega, show 11 + (i - 11) = i by omega] at h2
    simp [h1] at h2 ⊢
    exact h2

/-- A word whose reserved field is zero is made of its fields. -/
theorem makeWord_fields {w : CmdWord} (h : CmdWord.zero w = 0) :
    makeWord (CmdWord.kind w) (CmdWord.more w) (CmdWord.flags w) = w := by
  have h1 := makeWord_of_eleven_bits (w.extractLsb' 0 11)
  rwa [← CmdWord.eq_zeroExtend h] at h1

/-- The four kinds. -/
theorem kind_cases : ∀ k : BitVec 2, k = 0 ∨ k = 1 ∨ k = 2 ∨ k = 3 := by decide

/-- The 32 flag bytes without a reserved bit. -/
def legalFlags : List Byte := (List.range 32).map (BitVec.ofNat 8)

theorem mem_legalFlags : ∀ f : Byte, f &&& reservedMask = 0 → f ∈ legalFlags := by decide +kernel

/-- Each legal flag byte is decoded to the operation whose encoding carries it. -/
theorem encode_decodeOp {f : Byte} (h : f ∈ legalFlags) (c : Command) :
    (encode (decodeOp (f &&& 0x0F).toNat (f.getLsbD 4) c)).word = makeWord 0 (CmdWord.more c.word) f ∧
      (encode (decodeOp (f &&& 0x0F).toNat (f.getLsbD 4) c)).engine = c.engine ∧
      (encode (decodeOp (f &&& 0x0F).toNat (f.getLsbD 4) c)).len = c.len ∧
      (encode (decodeOp (f &&& 0x0F).toNat (f.getLsbD 4) c)).din =
        if Machine.takesInput (Machine.primOf f) then c.din else [] := by
  simp only [legalFlags, List.range, List.range.loop, List.map, List.mem_cons, List.not_mem_nil, or_false] at h
  rcases h with h | h | h | h | h | h | h | h | h | h | h | h | h | h | h | h | h | h | h | h | h | h | h | h | h |
    h | h | h | h | h | h | h <;> subst h <;> exact ⟨rfl, rfl, rfl, rfl⟩

end Sys2Proof
end

