-- ==== Sys2Proof/Laws/Memory.lean ====
section
/-!
SUPPORT. The laws of the state buffer: a read after a write, the canonical form kept by every memory
operation, extensionality of canonical buffers, and the permutation port.
-/

namespace Sys2Proof.Machine

/-! ### Reading after writing -/

@[simp] theorem Memory.read_nil (a : Nat) : Memory.read [] a = 0 := rfl

theorem Memory.read_cons (b : Nat) (w : Byte) (m : Memory) (a : Nat) :
    Memory.read ((b, w) :: m) a = if a = b then w else Memory.read m a := rfl

/-- In a list whose indices are at least `lo`, an index below `lo` is not listed. -/
theorem Memory.read_below {lo : Nat} {m : Memory} (h : Memory.wfFrom lo m = true) {a : Nat} (ha : a < lo) :
    Memory.read m a = 0 := by
  induction m generalizing lo with
  | nil => rfl
  | cons c m ih =>
    obtain ⟨b, w⟩ := c
    simp only [Memory.wfFrom, Bool.and_eq_true, decide_eq_true_eq] at h
    rw [Memory.read_cons, if_neg (by omega)]
    exact ih h.2 (by omega)

theorem Memory.wfFrom_mono {lo lo' : Nat} {m : Memory} (h : Memory.wfFrom lo m = true) (hl : lo' ≤ lo) :
    Memory.wfFrom lo' m = true := by
  cases m with
  | nil => rfl
  | cons c m =>
    obtain ⟨b, w⟩ := c
    simp only [Memory.wfFrom, Bool.and_eq_true, decide_eq_true_eq] at h ⊢
    exact ⟨⟨⟨by omega, h.1.1.2⟩, h.1.2⟩, h.2⟩

theorem Memory.wfFrom_put {lo : Nat} {m : Memory} {a : Nat} {v : Byte} (h : Memory.wfFrom lo m = true)
    (hlo : lo ≤ a) (ha : a < stateBytes) : Memory.wfFrom lo (Memory.put m a v) = true := by
  induction m generalizing lo with
  | nil =>
    simp only [Memory.put]
    split
    · rfl
    · simp [Memory.wfFrom, *]
  | cons c m ih =>
    obtain ⟨b, w⟩ := c
    have h' := h
    simp only [Memory.wfFrom, Bool.and_eq_true, decide_eq_true_eq] at h'
    simp only [Memory.put]
    split
    · split
      · exact h
      · simp only [Memory.wfFrom, Bool.and_eq_true, decide_eq_true_eq]
        exact ⟨⟨⟨hlo, ha⟩, ‹_›⟩, ⟨⟨by omega, h'.1.1.2⟩, h'.1.2⟩, h'.2⟩
    · split
      · split
        · exact Memory.wfFrom_mono h'.2 (by omega)
        · simp only [Memory.wfFrom, Bool.and_eq_true, decide_eq_true_eq]
          subst a
          exact ⟨⟨⟨hlo, ha⟩, ‹_›⟩, h'.2⟩
      · simp only [Memory.wfFrom, Bool.and_eq_true, decide_eq_true_eq]
        exact ⟨h'.1, ih h'.2 (by omega)⟩

theorem Memory.read_put {lo : Nat} {m : Memory} (h : Memory.wfFrom lo m = true) (a b : Nat) (v : Byte) :
    Memory.read (Memory.put m a v) b = if b = a then v else Memory.read m b := by
  induction m generalizing lo with
  | nil =>
    simp only [Memory.put]
    split
    · subst v; simp [Memory.unlisted]
    · simp [Memory.read, Memory.unlisted]
  | cons c m ih =>
    obtain ⟨k, w⟩ := c
    have h' := h
    simp only [Memory.wfFrom, Bool.and_eq_true, decide_eq_true_eq] at h'
    simp only [Memory.put]
    split
    · split
      · subst v
        by_cases hb : b = a
        · rw [if_pos hb, Memory.read_cons, if_neg (by omega)]
          exact Memory.read_below h'.2 (by omega)
        · rw [if_neg hb]
      · rw [Memory.read_cons]
    · split
      · subst a
        split
        · subst v
          by_cases hb : b = k
          · rw [if_pos hb]
            exact Memory.read_below h'.2 (by omega)
          · rw [if_neg hb, Memory.read_cons, if_neg hb]
        · rw [Memory.read_cons, Memory.read_cons]
          by_cases hb : b = k
          · simp [hb]
          · simp [hb]
      · rw [Memory.read_cons, Memory.read_cons, ih h'.2]
        by_cases hb : b = k
        · subst b; rw [if_pos rfl, if_pos rfl, if_neg (by omega)]
        · simp [hb]

/-- A read after a write: the byte written, or what was there. -/
theorem Memory.read_write {m : Memory} (h : Memory.wf m = true) {a : Nat} (ha : a < stateBytes) (b : Nat)
    (v : Byte) : Memory.read (Memory.write m a v) b = if b = a then v else Memory.read m b := by
  rw [Memory.write, if_pos ha]
  exact Memory.read_put h a b v

theorem Memory.read_xorAt {m : Memory} (h : Memory.wf m = true) {a : Nat} (ha : a < stateBytes) (b : Nat)
    (v : Byte) : Memory.read (Memory.xorAt m a v) b = Memory.read m b ^^^ (if b = a then v else 0) := by
  rw [Memory.xorAt, Memory.read_write h ha]
  split
  · subst b; rfl
  · simp

/-! ### The canonical form is kept -/

theorem Memory.wf_nil : Memory.wf [] = true := rfl

theorem Memory.wf_write {m : Memory} (h : Memory.wf m = true) (a : Nat) (v : Byte) :
    Memory.wf (Memory.write m a v) = true := by
  rw [Memory.write]
  split
  · exact Memory.wfFrom_put h (Nat.zero_le a) ‹_›
  · exact h

theorem Memory.wf_xorAt {m : Memory} (h : Memory.wf m = true) (a : Nat) (v : Byte) :
    Memory.wf (Memory.xorAt m a v) = true := Memory.wf_write h a _

theorem Memory.wf_clear {m : Memory} (h : Memory.wf m = true) (a n : Nat) :
    Memory.wf (Memory.clear m a n) = true := by
  induction n generalizing m a with
  | zero => exact h
  | succ n ih => exact ih (Memory.wf_write h a 0) (a + 1)

theorem Memory.read_clear {m : Memory} (h : Memory.wf m = true) {a n : Nat} (ha : a + n ≤ stateBytes) (b : Nat) :
    Memory.read (Memory.clear m a n) b = if a ≤ b ∧ b < a + n then 0 else Memory.read m b := by
  induction n generalizing m a with
  | zero => rw [if_neg (by omega)]; rfl
  | succ n ih =>
    rw [Memory.clear, ih (Memory.wf_write h a 0) (by omega), Memory.read_write h (by omega)]
    by_cases hb : b = a
    · subst b; simp
    · by_cases h1 : a + 1 ≤ b ∧ b < a + 1 + n
      · rw [if_pos h1, if_pos (by omega)]
      · rw [if_neg h1, if_neg hb, if_neg (by omega)]

theorem Memory.wfFrom_ofBytes (a : Nat) (bs : List Byte) (h : a + bs.length ≤ stateBytes) :
    Memory.wfFrom a (Memory.ofBytes a bs) = true := by
  induction bs generalizing a with
  | nil => rfl
  | cons b bs ih =>
    rw [List.length_cons] at h
    have ih' := ih (a + 1) (by omega)
    rw [Memory.ofBytes]
    split
    · exact Memory.wfFrom_mono ih' (by omega)
    · simp only [Memory.wfFrom, Bool.and_eq_true, decide_eq_true_eq]
      exact ⟨⟨⟨le_refl a, by omega⟩, ‹_›⟩, ih'⟩

theorem Memory.wf_ofBlock (b : Config.Block) : Memory.wf (Memory.ofBlock b) = true :=
  Memory.wfFrom_ofBytes 0 b.toList (by simp [stateBytes])

theorem Memory.wf_permute (F : Config.Block → Config.Block) (m : Memory) :
    Memory.wf (Memory.permute F m) = true := Memory.wf_ofBlock _

/-! ### The permutation port -/

theorem Memory.read_ofBytes (a : Nat) (bs : List Byte) (h : a + bs.length ≤ stateBytes) (b : Nat) :
    Memory.read (Memory.ofBytes a bs) b = if a ≤ b then bs.getD (b - a) 0 else 0 := by
  induction bs generalizing a with
  | nil => simp [Memory.ofBytes]
  | cons w bs ih =>
    rw [List.length_cons] at h
    have ih' := ih (a + 1) (by omega)
    rw [Memory.ofBytes]
    split
    · rw [ih']
      by_cases hb : a + 1 ≤ b
      · rw [if_pos hb, if_pos (by omega), show b - a = (b - (a + 1)) + 1 by omega, List.getD_cons_succ]
      · by_cases hb' : a = b
        · subst b; subst w; simp [Memory.unlisted]
        · rw [if_neg hb, if_neg (by omega)]
    · rw [Memory.read_cons]
      by_cases hb' : b = a
      · subst b; simp
      · rw [if_neg hb', ih']
        by_cases hb : a + 1 ≤ b
        · rw [if_pos hb, if_pos (by omega), show b - a = (b - (a + 1)) + 1 by omega, List.getD_cons_succ]
        · rw [if_neg hb, if_neg (by omega)]

/-- Byte `a` of the buffer built from a block is byte `a` of the block. -/
theorem Memory.read_ofBlock (b : Config.Block) {a : Nat} (ha : a < 200) :
    Memory.read (Memory.ofBlock b) a = b[a] := by
  rw [Memory.ofBlock, Memory.read_ofBytes 0 _ (by simp [stateBytes])]
  simp [List.getD, ha]

/-- Byte `a` handed to the port is byte `a` of the buffer. -/
theorem Memory.toBlock_get (m : Memory) {a : Nat} (ha : a < 200) :
    (Memory.toBlock m)[a] = Memory.read m a := by
  simp [Memory.toBlock]

/-- The port installs `F`'s answer index for index (R46, R47). -/
theorem Memory.read_permute (F : Config.Block → Config.Block) (m : Memory) {a : Nat} (ha : a < 200) :
    Memory.read (Memory.permute F m) a = (F (Memory.toBlock m))[a] := Memory.read_ofBlock _ ha

/-- What the port carries depends on the bytes alone. -/
theorem Memory.toBlock_congr {m m' : Memory} (h : ∀ a, a < 200 → Memory.read m a = Memory.read m' a) :
    Memory.toBlock m = Memory.toBlock m' := by
  apply Vector.ext
  intro i hi
  rw [Memory.toBlock_get m hi, Memory.toBlock_get m' hi, h i hi]

/-! ### Extensionality -/

theorem Memory.eq_of_read_from {lo : Nat} {m m' : Memory} (h : Memory.wfFrom lo m = true)
    (h' : Memory.wfFrom lo m' = true) (hr : ∀ a, Memory.read m a = Memory.read m' a) : m = m' := by
  induction m generalizing lo m' with
  | nil =>
    cases m' with
    | nil => rfl
    | cons c m' =>
      obtain ⟨b, w⟩ := c
      simp only [Memory.wfFrom, Bool.and_eq_true, decide_eq_true_eq] at h'
      have := hr b
      rw [Memory.read_nil, Memory.read_cons, if_pos rfl] at this
      exact absurd this.symm h'.1.2
  | cons c m ih =>
    obtain ⟨b, w⟩ := c
    have g := h
    simp only [Memory.wfFrom, Bool.and_eq_true, decide_eq_true_eq] at h
    cases m' with
    | nil =>
      have := hr b
      rw [Memory.read_nil, Memory.read_cons, if_pos rfl] at this
      exact absurd this h.1.2
    | cons c' m' =>
      obtain ⟨b', w'⟩ := c'
      have g' := h'
      simp only [Memory.wfFrom, Bool.and_eq_true, decide_eq_true_eq] at h'
      have hb : b = b' := by
        rcases Nat.lt_trichotomy b b' with hlt | heq | hgt
        · have := hr b
          rw [Memory.read_cons, if_pos rfl, Memory.read_cons, if_neg (by omega),
            Memory.read_below h'.2 (by omega)] at this
          exact absurd this h.1.2
        · exact heq
        · have := hr b'
          rw [Memory.read_cons, if_neg (by omega), Memory.read_cons, if_pos rfl,
            Memory.read_below h.2 (by omega)] at this
          exact absurd this.symm h'.1.2
      subst b'
      have hw : w = w' := by simpa [Memory.read_cons] using hr b
      subst w'
      rw [ih h.2 h'.2 fun a => ?_]
      by_cases ha : a = b
      · subst a; rw [Memory.read_below h.2 (by omega), Memory.read_below h'.2 (by omega)]
      · simpa [Memory.read_cons, ha] using hr a

/-- Canonical buffers that read alike everywhere are equal. -/
theorem Memory.eq_of_read {m m' : Memory} (h : Memory.wf m = true) (h' : Memory.wf m' = true)
    (hr : ∀ a, Memory.read m a = Memory.read m' a) : m = m' := Memory.eq_of_read_from h h' hr

/-- An index beyond the buffer is never listed. -/
theorem Memory.read_beyond {m : Memory} (h : Memory.wf m = true) {a : Nat} (ha : stateBytes ≤ a) :
    Memory.read m a = 0 := by
  suffices ∀ lo, Memory.wfFrom lo m = true → Memory.read m a = 0 from this 0 h
  clear h
  induction m with
  | nil => intro _ _; rfl
  | cons c m ih =>
    intro lo h
    obtain ⟨b, w⟩ := c
    simp only [Memory.wfFrom, Bool.and_eq_true, decide_eq_true_eq] at h
    rw [Memory.read_cons, if_neg (by omega)]
    exact ih _ h.2

/-- Writing back the byte that is there changes nothing. -/
theorem Memory.write_read_self {m : Memory} (h : Memory.wf m = true) (a : Nat) :
    Memory.write m a (Memory.read m a) = m := by
  by_cases ha : a < stateBytes
  · apply Memory.eq_of_read (Memory.wf_write h _ _) h
    intro b
    rw [Memory.read_write h ha]
    split
    · subst b; rfl
    · rfl
  · rw [Memory.write, if_neg ha]

end Sys2Proof.Machine
end

