-- ==== Sys2Proof/Laws/State.lean ====
section
/-!
SUPPORT. One lemma per field per named update of the state and of the engine record, true by rfl.
-/

namespace Sys2Proof.Machine

/-! ### The machine -/
@[simp] theorem State.answer_params (s : State) (r : Status) (o : List Byte) : (State.answer s r o).params = s.params := rfl
@[simp] theorem State.answer_engines (s : State) (r : Status) (o : List Byte) : (State.answer s r o).engines = s.engines := rfl
@[simp] theorem State.answer_pending (s : State) (r : Status) (o : List Byte) : (State.answer s r o).pending = s.pending := rfl
@[simp] theorem State.answer_responses (s : State) (r : Status) (o : List Byte) : (State.answer s r o).responses = s.responses ++ [{ status := r, dout := o }] := rfl
@[simp] theorem State.raise_params (s : State) (r : Status) : (State.raise s r).params = s.params := rfl
@[simp] theorem State.raise_engines (s : State) (r : Status) : (State.raise s r).engines = s.engines := rfl
@[simp] theorem State.raise_pending (s : State) (r : Status) : (State.raise s r).pending = s.pending := rfl
@[simp] theorem State.raise_responses (s : State) (r : Status) : (State.raise s r).responses = s.responses ++ [{ status := r, dout := [] }] := rfl
@[simp] theorem State.setEngine_params (s : State) (t : Nat) (e : Engine) : (State.setEngine s t e).params = s.params := rfl
@[simp] theorem State.setEngine_engines (s : State) (t : Nat) (e : Engine) : (State.setEngine s t e).engines = s.engines.set t e := rfl
@[simp] theorem State.setEngine_pending (s : State) (t : Nat) (e : Engine) : (State.setEngine s t e).pending = s.pending := rfl
@[simp] theorem State.setEngine_responses (s : State) (t : Nat) (e : Engine) : (State.setEngine s t e).responses = s.responses := rfl
@[simp] theorem State.completed_params (s : State) (t : Nat) (e : Engine) (r : Status) (o : List Byte) : (State.completed s t e r o).params = s.params := rfl
@[simp] theorem State.completed_engines (s : State) (t : Nat) (e : Engine) (r : Status) (o : List Byte) : (State.completed s t e r o).engines = s.engines.set t e := rfl
@[simp] theorem State.completed_pending (s : State) (t : Nat) (e : Engine) (r : Status) (o : List Byte) : (State.completed s t e r o).pending = s.pending := rfl
@[simp] theorem State.completed_responses (s : State) (t : Nat) (e : Engine) (r : Status) (o : List Byte) : (State.completed s t e r o).responses = s.responses ++ [{ status := r, dout := o }] := rfl
@[simp] theorem State.responded_params (s : State) (r : Status) (o : List Byte) : (State.responded s r o).params = s.params := rfl
@[simp] theorem State.responded_engines (s : State) (r : Status) (o : List Byte) : (State.responded s r o).engines = s.engines := rfl
@[simp] theorem State.responded_pending (s : State) (r : Status) (o : List Byte) : (State.responded s r o).pending = s.pending := rfl
@[simp] theorem State.responded_responses (s : State) (r : Status) (o : List Byte) : (State.responded s r o).responses = s.responses ++ [{ status := r, dout := o }] := rfl

@[simp] theorem State.hardwareReset_params (s : State) : s.hardwareReset.params = s.params := rfl
@[simp] theorem State.hardwareReset_engines (s : State) : s.hardwareReset.engines = s.engines.map fun _ => Engine.reset := rfl
@[simp] theorem State.hardwareReset_pending (s : State) : s.hardwareReset.pending = s.pending := rfl
@[simp] theorem State.hardwareReset_responses (s : State) : s.hardwareReset.responses = s.responses := rfl

/-- The two ways a completed command is written. -/
theorem State.answer_setEngine (s : State) (t : Nat) (e : Engine) (r : Status) (o : List Byte) :
    (s.setEngine t e).answer r o = s.completed t e r o := rfl

theorem State.raise_eq (s : State) (r : Status) : s.raise r = s.responded r [] := rfl

/-! ### The engine record -/
@[simp] theorem Engine.padInject_securityLevel (e : Engine) : (e.padInject).securityLevel = e.securityLevel := rfl
@[simp] theorem Engine.padInject_rate (e : Engine) : (e.padInject).rate = e.rate := rfl
@[simp] theorem Engine.padInject_pos (e : Engine) : (e.padInject).pos = e.pos := rfl
@[simp] theorem Engine.padInject_posBegin (e : Engine) : (e.padInject).posBegin = e.posBegin := rfl
@[simp] theorem Engine.padInject_role (e : Engine) : (e.padInject).role = e.role := rfl
@[simp] theorem Engine.padInject_activeFlags (e : Engine) : (e.padInject).activeFlags = e.activeFlags := rfl
@[simp] theorem Engine.padInject_padMode (e : Engine) : (e.padInject).padMode = e.padMode := rfl
@[simp] theorem Engine.padInject_initialized (e : Engine) : (e.padInject).initialized = e.initialized := rfl
@[simp] theorem Engine.runF_securityLevel (F : Config.Block → Config.Block) (e : Engine) : (e.runF F).securityLevel = e.securityLevel := rfl
@[simp] theorem Engine.runF_st (F : Config.Block → Config.Block) (e : Engine) : (e.runF F).st = Memory.permute F e.portBlock := rfl
@[simp] theorem Engine.runF_rate (F : Config.Block → Config.Block) (e : Engine) : (e.runF F).rate = e.rate := rfl
@[simp] theorem Engine.runF_pos (F : Config.Block → Config.Block) (e : Engine) : (e.runF F).pos = 0 := rfl
@[simp] theorem Engine.runF_posBegin (F : Config.Block → Config.Block) (e : Engine) : (e.runF F).posBegin = 0 := rfl
@[simp] theorem Engine.runF_role (F : Config.Block → Config.Block) (e : Engine) : (e.runF F).role = e.role := rfl
@[simp] theorem Engine.runF_activeFlags (F : Config.Block → Config.Block) (e : Engine) : (e.runF F).activeFlags = e.activeFlags := rfl
@[simp] theorem Engine.runF_padMode (F : Config.Block → Config.Block) (e : Engine) : (e.runF F).padMode = e.padMode := rfl
@[simp] theorem Engine.runF_initialized (F : Config.Block → Config.Block) (e : Engine) : (e.runF F).initialized = e.initialized := rfl
@[simp] theorem Engine.negotiate_securityLevel (flags : Byte) (e : Engine) : (e.negotiate flags).securityLevel = e.securityLevel := rfl
@[simp] theorem Engine.negotiate_st (flags : Byte) (e : Engine) : (e.negotiate flags).st = e.st := rfl
@[simp] theorem Engine.negotiate_rate (flags : Byte) (e : Engine) : (e.negotiate flags).rate = e.rate := rfl
@[simp] theorem Engine.negotiate_pos (flags : Byte) (e : Engine) : (e.negotiate flags).pos = e.pos := rfl
@[simp] theorem Engine.negotiate_posBegin (flags : Byte) (e : Engine) : (e.negotiate flags).posBegin = e.posBegin := rfl
@[simp] theorem Engine.negotiate_role (flags : Byte) (e : Engine) : (e.negotiate flags).role = decideRole flags e.role := rfl
@[simp] theorem Engine.negotiate_activeFlags (flags : Byte) (e : Engine) : (e.negotiate flags).activeFlags = e.activeFlags := rfl
@[simp] theorem Engine.negotiate_padMode (flags : Byte) (e : Engine) : (e.negotiate flags).padMode = e.padMode := rfl
@[simp] theorem Engine.negotiate_initialized (flags : Byte) (e : Engine) : (e.negotiate flags).initialized = e.initialized := rfl
@[simp] theorem Engine.openOp_securityLevel (F : Config.Block → Config.Block) (flags : Byte) (e : Engine) : (e.openOp F flags).securityLevel = (e.beginOp F flags).securityLevel := rfl
@[simp] theorem Engine.openOp_st (F : Config.Block → Config.Block) (flags : Byte) (e : Engine) : (e.openOp F flags).st = (e.beginOp F flags).st := rfl
@[simp] theorem Engine.openOp_rate (F : Config.Block → Config.Block) (flags : Byte) (e : Engine) : (e.openOp F flags).rate = (e.beginOp F flags).rate := rfl
@[simp] theorem Engine.openOp_pos (F : Config.Block → Config.Block) (flags : Byte) (e : Engine) : (e.openOp F flags).pos = (e.beginOp F flags).pos := rfl
@[simp] theorem Engine.openOp_posBegin (F : Config.Block → Config.Block) (flags : Byte) (e : Engine) : (e.openOp F flags).posBegin = (e.beginOp F flags).posBegin := rfl
@[simp] theorem Engine.openOp_role (F : Config.Block → Config.Block) (flags : Byte) (e : Engine) : (e.openOp F flags).role = (e.beginOp F flags).role := rfl
@[simp] theorem Engine.openOp_activeFlags (F : Config.Block → Config.Block) (flags : Byte) (e : Engine) : (e.openOp F flags).activeFlags = flags := rfl
@[simp] theorem Engine.openOp_padMode (F : Config.Block → Config.Block) (flags : Byte) (e : Engine) : (e.openOp F flags).padMode = (e.beginOp F flags).padMode := rfl
@[simp] theorem Engine.openOp_initialized (F : Config.Block → Config.Block) (flags : Byte) (e : Engine) : (e.openOp F flags).initialized = (e.beginOp F flags).initialized := rfl
@[simp] theorem Engine.initSwitch_securityLevel (e : Engine) : (initSwitch e).securityLevel = e.securityLevel := rfl
@[simp] theorem Engine.initSwitch_st (e : Engine) : (initSwitch e).st = e.st := rfl
@[simp] theorem Engine.initSwitch_rate (e : Engine) : (initSwitch e).rate = e.rate - 2 := rfl
@[simp] theorem Engine.initSwitch_pos (e : Engine) : (initSwitch e).pos = e.pos := rfl
@[simp] theorem Engine.initSwitch_posBegin (e : Engine) : (initSwitch e).posBegin = e.posBegin := rfl
@[simp] theorem Engine.initSwitch_role (e : Engine) : (initSwitch e).role = e.role := rfl
@[simp] theorem Engine.initSwitch_activeFlags (e : Engine) : (initSwitch e).activeFlags = e.activeFlags := rfl
@[simp] theorem Engine.initSwitch_padMode (e : Engine) : (initSwitch e).padMode = .padded := rfl
@[simp] theorem Engine.initSwitch_initialized (e : Engine) : (initSwitch e).initialized = true := rfl

end Sys2Proof.Machine
end

