-- ==== Sys2Proof/Laws/Engine.lean ====
section
/-!
SUPPORT. The laws of the permutation trigger, the cursor and the byte-serial walk: what each leaves of the
record, and what a walk does inside one block, at its end and across blocks.
-/

namespace Sys2Proof.Machine

/-! ### The trigger and the cursor -/

theorem Engine.padInject_wf {e : Engine} (h : Memory.wf e.st = true) : Memory.wf e.padInject.st = true :=
  Memory.wf_xorAt (Memory.wf_xorAt (Memory.wf_xorAt h _ _) _ _) _ _

/-- The three bytes of the padding injector (R81). -/
theorem Engine.read_padInject {e : Engine} (h : Memory.wf e.st = true) (hp : e.pos ≤ e.rate)
    (hr : e.rate + 1 < stateBytes) (a : Nat) :
    Memory.read e.padInject.st a = Memory.read e.st a ^^^ (if a = e.pos then BitVec.ofNat 8 e.posBegin else 0) ^^^
      (if a = e.pos + 1 then 0x04 else 0) ^^^ (if a = e.rate + 1 then 0x80 else 0) := by
  have h1 := Memory.wf_xorAt h e.pos (BitVec.ofNat 8 e.posBegin)
  have h2 := Memory.wf_xorAt h1 (e.pos + 1) pad04
  simp only [Engine.padInject]
  rw [Memory.read_xorAt h2 hr, Memory.read_xorAt h1 (by omega), Memory.read_xorAt h (by omega)]
  rfl

/-- The fields a permutation trigger, a cursor step or a walk never writes (R100). -/
def Engine.SameFrame (e e' : Engine) : Prop :=
  e'.securityLevel = e.securityLevel ∧ e'.rate = e.rate ∧ e'.role = e.role ∧ e'.activeFlags = e.activeFlags ∧
  e'.padMode = e.padMode ∧ e'.initialized = e.initialized

theorem Engine.SameFrame.refl (e : Engine) : e.SameFrame e := ⟨rfl, rfl, rfl, rfl, rfl, rfl⟩

theorem Engine.SameFrame.trans {e e' e'' : Engine} (h : e.SameFrame e') (h' : e'.SameFrame e'') : e.SameFrame e'' := by
  obtain ⟨a1, a2, a3, a4, a5, a6⟩ := h
  obtain ⟨b1, b2, b3, b4, b5, b6⟩ := h'
  exact ⟨b1.trans a1, b2.trans a2, b3.trans a3, b4.trans a4, b5.trans a5, b6.trans a6⟩

variable (F : Config.Block → Config.Block)

theorem Engine.runF_sameFrame (e : Engine) : e.SameFrame (e.runF F) := ⟨rfl, rfl, rfl, rfl, rfl, rfl⟩

theorem Engine.runF_wf (e : Engine) : Memory.wf (e.runF F).st = true := Memory.wf_permute F _

/-- The trigger's answer depends on the bytes handed over alone (R80). -/
theorem Engine.read_runF (e : Engine) {a : Nat} (ha : a < 200) :
    Memory.read (e.runF F).st a = (F (Memory.toBlock e.portBlock))[a] := Memory.read_permute F _ ha

theorem Engine.wrap_sameFrame (e : Engine) : e.SameFrame (e.wrap F) := by
  rw [Engine.wrap]
  split
  · exact e.runF_sameFrame F
  · exact .refl e

theorem Engine.wrap_wf {e : Engine} (h : Memory.wf e.st = true) : Memory.wf (e.wrap F).st = true := by
  rw [Engine.wrap]
  split
  · exact e.runF_wf F
  · exact h

/-- After the boundary test the cursor is inside the window. -/
theorem Engine.wrap_pos_lt {e : Engine} (h : e.pos ≤ e.rate) (hr : 0 < e.rate) : (e.wrap F).pos < e.rate := by
  rw [Engine.wrap]
  split
  · exact hr
  · omega

theorem Engine.forceF_sameFrame (e : Engine) : e.SameFrame (e.forceF F) := by
  rw [Engine.forceF]
  split
  · exact .refl e
  · exact e.runF_sameFrame F

theorem Engine.forceF_pos (e : Engine) : (e.forceF F).pos = 0 := by
  rw [Engine.forceF]
  split
  · assumption
  · rfl

theorem Engine.forceF_wf {e : Engine} (h : Memory.wf e.st = true) : Memory.wf (e.forceF F).st = true := by
  rw [Engine.forceF]
  split
  · exact h
  · exact e.runF_wf F

/-! ### One step of a walk -/

variable (r : ByteRule)

theorem Engine.step1_sameFrame (d : Byte) (e : Engine) : e.SameFrame (e.step1 F r d) :=
  Engine.wrap_sameFrame F { e with st := Memory.write e.st e.pos (r.newState (Memory.read e.st e.pos) d), pos := e.pos + 1 }

theorem Engine.step1_wf {e : Engine} (h : Memory.wf e.st = true) (d : Byte) : Memory.wf (e.step1 F r d).st = true :=
  Engine.wrap_wf F (Memory.wf_write h _ _)

theorem Engine.step1_pos_lt {e : Engine} (h : e.pos < e.rate) (d : Byte) : (e.step1 F r d).pos < e.rate :=
  Engine.wrap_pos_lt F (e := { e with st := Memory.write e.st e.pos (r.newState (Memory.read e.st e.pos) d), pos := e.pos + 1 })
    (by exact h) (by show 0 < e.rate; omega)

/-- A step that does not reach the boundary. -/
theorem Engine.step1_inside {e : Engine} (h : e.pos + 1 ≠ e.rate) (d : Byte) :
    e.step1 F r d = { e with st := Memory.write e.st e.pos (r.newState (Memory.read e.st e.pos) d), pos := e.pos + 1 } := by
  rw [Engine.step1, Engine.advance, Engine.wrap, if_neg h]

/-! ### The walk -/

@[simp] theorem Engine.walk_nil (e : Engine) : e.walk F r [] = (e, []) := rfl

theorem Engine.walk_cons (d : Byte) (ds : List Byte) (e : Engine) :
    e.walk F r (d :: ds) =
      (((e.step1 F r d).walk F r ds).1, r.output (Memory.read e.st e.pos) d :: ((e.step1 F r d).walk F r ds).2) := rfl

/-- The concatenation law (R109). -/
theorem Engine.walk_append (xs ys : List Byte) (e : Engine) :
    e.walk F r (xs ++ ys) =
      (((e.walk F r xs).1.walk F r ys).1, (e.walk F r xs).2 ++ ((e.walk F r xs).1.walk F r ys).2) := by
  induction xs generalizing e with
  | nil => rfl
  | cons x xs ih => simp [Engine.walk_cons, ih]

theorem Engine.walk_length (ds : List Byte) (e : Engine) : (e.walk F r ds).2.length = ds.length := by
  induction ds generalizing e with
  | nil => rfl
  | cons d ds ih => simp [Engine.walk_cons, ih]

theorem Engine.walk_sameFrame (ds : List Byte) (e : Engine) : e.SameFrame (e.walk F r ds).1 := by
  induction ds generalizing e with
  | nil => exact .refl e
  | cons d ds ih => exact (e.step1_sameFrame F r d).trans (ih _)

theorem Engine.walk_rate (ds : List Byte) (e : Engine) : (e.walk F r ds).1.rate = e.rate :=
  (e.walk_sameFrame F r ds).2.1

theorem Engine.walk_wf (ds : List Byte) {e : Engine} (h : Memory.wf e.st = true) :
    Memory.wf (e.walk F r ds).1.st = true := by
  induction ds generalizing e with
  | nil => exact h
  | cons d ds ih => exact ih (Engine.step1_wf F r h d)

theorem Engine.step1_rate (d : Byte) (e : Engine) : (e.step1 F r d).rate = e.rate := (e.step1_sameFrame F r d).2.1

theorem Engine.walk_pos_lt (ds : List Byte) {e : Engine} (h : e.pos < e.rate) : (e.walk F r ds).1.pos < e.rate := by
  induction ds generalizing e with
  | nil => exact h
  | cons d ds ih =>
    have h1 := Engine.step1_pos_lt F r h d
    have h2 := ih (e := e.step1 F r d) (by rw [Engine.step1_rate]; exact h1)
    rwa [Engine.step1_rate] at h2

/-- The operation start stays behind the cursor (R31 item 6). -/
theorem Engine.step1_begin {e : Engine} (h : e.posBegin ≤ e.pos) (d : Byte) :
    (e.step1 F r d).posBegin ≤ (e.step1 F r d).pos ∧
      ((e.step1 F r d).posBegin = (e.step1 F r d).pos → (e.step1 F r d).pos = 0) := by
  by_cases hb : e.pos + 1 = e.rate
  · have : e.step1 F r d = Engine.runF F { e with st := Memory.write e.st e.pos (r.newState (Memory.read e.st e.pos) d), pos := e.pos + 1 } := by
      rw [Engine.step1, Engine.advance, Engine.wrap, if_pos hb]
    rw [this]
    exact ⟨le_refl _, fun _ => rfl⟩
  · rw [Engine.step1_inside F r hb]
    exact ⟨by show e.posBegin ≤ e.pos + 1; omega, by show e.posBegin = e.pos + 1 → _; omega⟩

theorem Engine.walk_begin (ds : List Byte) {e : Engine}
    (h : e.posBegin ≤ e.pos ∧ (e.posBegin = e.pos → e.pos = 0)) :
    (e.walk F r ds).1.posBegin ≤ (e.walk F r ds).1.pos ∧
      ((e.walk F r ds).1.posBegin = (e.walk F r ds).1.pos → (e.walk F r ds).1.pos = 0) := by
  induction ds generalizing e with
  | nil => exact h
  | cons d ds ih => exact ih (Engine.step1_begin F r h.1 d)

/-- A walk that ends inside the block: the cursor has moved, the bytes under it have taken their new
values, nothing else has changed, and every output byte was taken from the state it started with. -/
theorem Engine.walk_inside (ds : List Byte) {e : Engine} (h : Memory.wf e.st = true)
    (hp : e.pos + ds.length < e.rate) (hr : e.rate ≤ stateBytes) :
    ∃ m, (e.walk F r ds).1 = { e with st := m, pos := e.pos + ds.length } ∧ Memory.wf m = true ∧
      (∀ a, Memory.read m a = if e.pos ≤ a ∧ a < e.pos + ds.length
        then r.newState (Memory.read e.st a) (ds.getD (a - e.pos) 0) else Memory.read e.st a) ∧
      (∀ i, i < ds.length → (e.walk F r ds).2.getD i 0 = r.output (Memory.read e.st (e.pos + i)) (ds.getD i 0)) := by
  induction ds generalizing e with
  | nil => exact ⟨e.st, rfl, h, fun a => by rw [if_neg (by simp)], fun i hi => absurd hi (by simp)⟩
  | cons d ds ih =>
    rw [List.length_cons] at hp
    have hs := Engine.step1_inside F r (e := e) (by omega) d
    have hw := Memory.wf_write h e.pos (r.newState (Memory.read e.st e.pos) d)
    have hrd := fun b => Memory.read_write h (a := e.pos) (by omega) b (r.newState (Memory.read e.st e.pos) d)
    obtain ⟨m, h1, h2, h3, h4⟩ := ih (e := e.step1 F r d) (by rw [hs]; exact hw)
      (by rw [hs]; show e.pos + 1 + ds.length < e.rate; omega) (by rw [hs]; exact hr)
    refine ⟨m, ?_, h2, ?_, ?_⟩
    · rw [Engine.walk_cons, h1, hs, List.length_cons, show e.pos + (ds.length + 1) = e.pos + 1 + ds.length by omega]
    · intro a
      rw [h3 a, hs, List.length_cons]
      simp only []
      rw [hrd a]
      by_cases ha : a = e.pos
      · subst a
        rw [if_neg (by omega), if_pos rfl, if_pos (by omega), Nat.sub_self, List.getD_cons_zero]
      · rw [if_neg ha]
        by_cases hb : e.pos + 1 ≤ a ∧ a < e.pos + 1 + ds.length
        · rw [if_pos hb, if_pos (by omega), show a - e.pos = (a - (e.pos + 1)) + 1 by omega, List.getD_cons_succ]
        · rw [if_neg hb, if_neg (by omega)]
    · intro i hi
      rw [Engine.walk_cons]
      cases i with
      | zero => rfl
      | succ i =>
        rw [List.getD_cons_succ, List.getD_cons_succ, h4 i (by simpa using hi), hs]
        simp only []
        rw [hrd, if_neg (by omega), show e.pos + 1 + i = e.pos + (i + 1) by omega]

/-- A walk that ends exactly at the boundary: the same block as `walk_inside` gives, then `RunF` with the
cursor at `rate` (R84, R87). -/
theorem Engine.walk_to_boundary (ds : List Byte) {e : Engine} (h : Memory.wf e.st = true)
    (hne : 0 < ds.length) (hp : e.pos + ds.length = e.rate) (hr : e.rate ≤ stateBytes) :
    ∃ m, (e.walk F r ds).1 = Engine.runF F { e with st := m, pos := e.rate } ∧ Memory.wf m = true ∧
      (∀ a, Memory.read m a = if e.pos ≤ a ∧ a < e.rate
        then r.newState (Memory.read e.st a) (ds.getD (a - e.pos) 0) else Memory.read e.st a) ∧
      (∀ i, i < ds.length → (e.walk F r ds).2.getD i 0 = r.output (Memory.read e.st (e.pos + i)) (ds.getD i 0)) := by
  induction ds generalizing e with
  | nil => exact absurd hne (by simp)
  | cons d ds ih =>
    rw [List.length_cons] at hp
    have hw := Memory.wf_write h e.pos (r.newState (Memory.read e.st e.pos) d)
    have hrd := fun b => Memory.read_write h (a := e.pos) (by omega) b (r.newState (Memory.read e.st e.pos) d)
    by_cases hd : ds.length = 0
    · have hnil : ds = [] := List.length_eq_zero_iff.mp hd
      subst hnil
      have hb : e.pos + 1 = e.rate := by simpa using hp
      refine ⟨Memory.write e.st e.pos (r.newState (Memory.read e.st e.pos) d), ?_, hw, ?_, ?_⟩
      · rw [Engine.walk_cons, Engine.walk_nil, Engine.step1, Engine.advance, Engine.wrap, if_pos hb, ← hb]
      · intro a
        rw [hrd a]
        by_cases ha : a = e.pos
        · subst a; rw [if_pos rfl, if_pos (by omega), Nat.sub_self, List.getD_cons_zero]
        · rw [if_neg ha, if_neg (by omega)]
      · intro i hi
        have : i = 0 := by simpa using hi
        subst this; rfl
    · have hs := Engine.step1_inside F r (e := e) (by omega) d
      obtain ⟨m, h1, h2, h3, h4⟩ := ih (e := e.step1 F r d) (by rw [hs]; exact hw) (by omega)
        (by rw [hs]; show e.pos + 1 + ds.length = e.rate; omega) (by rw [hs]; exact hr)
      refine ⟨m, ?_, h2, ?_, ?_⟩
      · rw [Engine.walk_cons, h1, hs]
      · intro a
        rw [h3 a, hs]
        simp only []
        rw [hrd a]
        by_cases ha : a = e.pos
        · subst a
          rw [if_neg (by omega), if_pos rfl, if_pos (by omega), Nat.sub_self, List.getD_cons_zero]
        · rw [if_neg ha]
          by_cases hb : e.pos + 1 ≤ a ∧ a < e.rate
          · rw [if_pos hb, if_pos (by omega), show a - e.pos = (a - (e.pos + 1)) + 1 by omega, List.getD_cons_succ]
          · rw [if_neg hb, if_neg (by omega)]
      · intro i hi
        rw [Engine.walk_cons]
        cases i with
        | zero => rfl
        | succ i =>
          rw [List.getD_cons_succ, List.getD_cons_succ, h4 i (by simpa using hi), hs]
          simp only []
          rw [hrd, if_neg (by omega), show e.pos + 1 + i = e.pos + (i + 1) by omega]

/-- Where a step leaves the cursor and the operation start, whatever the bytes are. -/
theorem Engine.step1_cursor (d : Byte) (e : Engine) :
    (e.step1 F r d).pos = (if e.pos + 1 = e.rate then 0 else e.pos + 1) ∧
      (e.step1 F r d).posBegin = (if e.pos + 1 = e.rate then 0 else e.posBegin) := by
  rw [Engine.step1, Engine.advance, Engine.wrap]
  by_cases h : e.pos + 1 = e.rate
  · rw [if_pos (by exact h), if_pos h, if_pos h]; exact ⟨rfl, rfl⟩
  · rw [if_neg (by exact h), if_neg h, if_neg h]; exact ⟨rfl, rfl⟩

/-- The cursor after a walk: `(p + n) mod rate`, the operation start kept only if no permutation ran
(R111). -/
theorem Engine.walk_cursor (ds : List Byte) {e : Engine} (h : e.pos < e.rate) :
    (e.walk F r ds).1.pos = (e.pos + ds.length) % e.rate ∧
      (e.walk F r ds).1.posBegin = if e.pos + ds.length < e.rate then e.posBegin else 0 := by
  induction ds generalizing e with
  | nil => exact ⟨(Nat.mod_eq_of_lt h).symm, by rw [if_pos (by simpa using h)]; rfl⟩
  | cons d ds ih =>
    obtain ⟨h1, h2⟩ := Engine.step1_cursor F r d e
    have hr := Engine.step1_rate F r d e
    obtain ⟨i1, i2⟩ := ih (e := e.step1 F r d) (by rw [hr]; exact Engine.step1_pos_lt F r h d)
    rw [Engine.walk_cons, List.length_cons]
    simp only []
    rw [i1, i2, hr, h1, h2]
    by_cases hb : e.pos + 1 = e.rate
    · rw [if_pos hb, if_pos hb, ite_self, if_neg (by omega),
        show e.pos + (ds.length + 1) = (0 + ds.length) + e.rate by omega, Nat.add_mod_right]
      exact ⟨rfl, rfl⟩
    · rw [if_neg hb, if_neg hb, show e.pos + (ds.length + 1) = e.pos + 1 + ds.length by omega]
      exact ⟨rfl, rfl⟩

/-- A walk's effect on the engine depends on its rule's new state byte alone. -/
theorem Engine.walk_congr {r r' : ByteRule} (ds ds' : List Byte) (hl : ds.length = ds'.length)
    (hn : ∀ s i, i < ds.length → r.newState s (ds.getD i 0) = r'.newState s (ds'.getD i 0)) (e : Engine) :
    (e.walk F r ds).1 = (e.walk F r' ds').1 := by
  induction ds generalizing ds' e with
  | nil =>
    have : ds' = [] := List.length_eq_zero_iff.mp (by simpa using hl.symm)
    subst this; rfl
  | cons d ds ih =>
    cases ds' with
    | nil => simp at hl
    | cons d' ds' =>
      have h0 := hn (Memory.read e.st e.pos) 0 (by simp)
      simp only [List.getD_cons_zero] at h0
      have hs : e.step1 F r d = e.step1 F r' d' := by rw [Engine.step1, Engine.step1, h0]
      rw [Engine.walk_cons, Engine.walk_cons, hs]
      exact ih ds' (by simpa using hl)
        (fun s i hi => by simpa using hn s (i + 1) (by simpa using hi)) _

end Sys2Proof.Machine
end

