-- ==== Sys2Proof/Laws/Sequencer.lean ====
section
/-!
SUPPORT. The laws of the primitives, of begin-operation framing and of the commands: what each leaves of
the record, and the one lemma per command that says everything it can answer.
-/

namespace Sys2Proof.Machine

variable (F : Config.Block → Config.Block)

/-! ### The primitives as walks -/

/-- Clearing a run of bytes that ends at or before the boundary, with the boundary test after it, is the
byte-serial walk that overwrites them with zeros. -/
theorem Engine.zeroTurn_eq_walk (k : Nat) {e : Engine} (hk : e.pos + (k + 1) ≤ e.rate) :
    Engine.wrap F { e with st := Memory.clear e.st e.pos (k + 1), pos := e.pos + (k + 1) } =
      (e.walk F overwriteRule (List.replicate (k + 1) 0x00)).1 := by
  induction k generalizing e with
  | zero => rfl
  | succ k ih =>
    have hs := Engine.step1_inside F overwriteRule (e := e) (by omega) 0x00
    rw [List.replicate_succ, Engine.walk_cons, hs, ← ih (by show e.pos + 1 + (k + 1) ≤ e.rate; omega)]
    simp only [Memory.clear, overwriteRule]
    rw [show e.pos + (k + 1 + 1) = e.pos + 1 + (k + 1) by omega]

/-- Zero-run is a walk, so it keeps whatever walks keep. -/
theorem Engine.zeroTurns_is_walk (fuel n : Nat) {e : Engine} (h : e.pos < e.rate) :
    ∃ ds, Engine.zeroTurns F fuel n e = (e.walk F overwriteRule ds).1 := by
  induction fuel generalizing n e with
  | zero => exact ⟨[], rfl⟩
  | succ fuel ih =>
    cases n with
    | zero => exact ⟨[], rfl⟩
    | succ n =>
      rw [Engine.zeroTurns]
      obtain ⟨k, hk⟩ : ∃ k, min (e.rate - e.pos) (n + 1) = k + 1 := ⟨min (e.rate - e.pos) (n + 1) - 1, by omega⟩
      simp only [hk]
      rw [Engine.zeroTurn_eq_walk F k (by omega)]
      have hp := Engine.walk_pos_lt F overwriteRule (List.replicate (k + 1) 0x00) h
      obtain ⟨ds, hds⟩ := ih (n + 1 - (k + 1))
        (e := (e.walk F overwriteRule (List.replicate (k + 1) 0x00)).1) (by rw [Engine.walk_rate]; exact hp)
      exact ⟨List.replicate (k + 1) 0x00 ++ ds, by rw [hds, Engine.walk_append]⟩

/-- Whatever the flags, the primitive run is a walk. -/
theorem Engine.runPrim_is_walk (flags : Byte) (len : Nat) (din : List Byte) {e : Engine} (h : e.pos < e.rate) :
    ∃ r ds, (e.runPrim F flags len din).1 = (e.walk F r ds).1 := by
  rw [Engine.runPrim]
  cases primOf flags with
  | absorb => exact ⟨_, _, rfl⟩
  | overwrite => exact ⟨_, _, rfl⟩
  | absorbAndSet => exact ⟨_, _, rfl⟩
  | copyState => exact ⟨_, _, rfl⟩
  | exchange => exact ⟨_, _, rfl⟩
  | squeeze => exact ⟨_, _, rfl⟩
  | zeroRun =>
    obtain ⟨ds, hds⟩ := Engine.zeroTurns_is_walk F len len h
    exact ⟨overwriteRule, ds, hds⟩

theorem Engine.runPrim_sameFrame (flags : Byte) (len : Nat) (din : List Byte) {e : Engine} (h : e.pos < e.rate) :
    e.SameFrame (e.runPrim F flags len din).1 := by
  obtain ⟨r, ds, hw⟩ := Engine.runPrim_is_walk F flags len din h
  rw [hw]; exact Engine.walk_sameFrame F r ds e

theorem Engine.runPrim_pos_lt (flags : Byte) (len : Nat) (din : List Byte) {e : Engine} (h : e.pos < e.rate) :
    (e.runPrim F flags len din).1.pos < e.rate := by
  obtain ⟨r, ds, hw⟩ := Engine.runPrim_is_walk F flags len din h
  rw [hw]; exact Engine.walk_pos_lt F r ds h

theorem Engine.runPrim_wf (flags : Byte) (len : Nat) (din : List Byte) {e : Engine} (h : e.pos < e.rate)
    (hm : Memory.wf e.st = true) : Memory.wf (e.runPrim F flags len din).1.st = true := by
  obtain ⟨r, ds, hw⟩ := Engine.runPrim_is_walk F flags len din h
  rw [hw]; exact Engine.walk_wf F r ds hm

theorem Engine.runPrim_begin (flags : Byte) (len : Nat) (din : List Byte) {e : Engine} (h : e.pos < e.rate)
    (hb : e.posBegin ≤ e.pos ∧ (e.posBegin = e.pos → e.pos = 0)) :
    (e.runPrim F flags len din).1.posBegin ≤ (e.runPrim F flags len din).1.pos ∧
      ((e.runPrim F flags len din).1.posBegin = (e.runPrim F flags len din).1.pos →
        (e.runPrim F flags len din).1.pos = 0) := by
  obtain ⟨r, ds, hw⟩ := Engine.runPrim_is_walk F flags len din h
  rw [hw]; exact Engine.walk_begin F r ds hb

/-! ### Begin-operation framing -/

/-- The record the framing bytes are absorbed into. -/
theorem Engine.frameBytes_eq (ff : Byte) (e : Engine) :
    e.frameBytes F ff =
      (Engine.walk F absorbRule [BitVec.ofNat 8 e.posBegin, ff] { e with posBegin := e.pos + 1 }).1 := rfl

/-- Two framing bytes leave the operation start behind the cursor. -/
theorem Engine.frameBytes_begin (ff : Byte) (e : Engine) :
    (e.frameBytes F ff).posBegin ≤ (e.frameBytes F ff).pos ∧
      ((e.frameBytes F ff).posBegin = (e.frameBytes F ff).pos → (e.frameBytes F ff).pos = 0) := by
  rw [Engine.frameBytes_eq, Engine.walk_cons]
  obtain ⟨h1, h2⟩ := Engine.step1_cursor F absorbRule (BitVec.ofNat 8 e.posBegin) { e with posBegin := e.pos + 1 }
  have hle : (Engine.step1 F absorbRule (BitVec.ofNat 8 e.posBegin) { e with posBegin := e.pos + 1 }).posBegin ≤
      (Engine.step1 F absorbRule (BitVec.ofNat 8 e.posBegin) { e with posBegin := e.pos + 1 }).pos := by
    rw [h1, h2]
  exact Engine.step1_begin F absorbRule hle ff

/-- What framing writes beside the buffer and the cursor: the role alone. -/
theorem Engine.beginOp_frame (flags : Byte) (e : Engine) :
    (e.beginOp F flags).securityLevel = e.securityLevel ∧ (e.beginOp F flags).rate = e.rate ∧
      (e.beginOp F flags).role = decideRole flags e.role ∧ (e.beginOp F flags).activeFlags = e.activeFlags ∧
      (e.beginOp F flags).padMode = e.padMode ∧ (e.beginOp F flags).initialized = e.initialized := by
  have hf : (e.negotiate flags).SameFrame (e.beginOp F flags) := by
    have h1 : (e.negotiate flags).SameFrame
        ((e.negotiate flags).frameBytes F (framedFlags flags (decideRole flags e.role))) :=
      Engine.walk_sameFrame F absorbRule _ { e.negotiate flags with posBegin := (e.negotiate flags).pos + 1 }
    simp only [Engine.beginOp, Engine.forceConfidential]
    split
    · exact h1.trans (Engine.forceF_sameFrame F _)
    · exact h1
  exact ⟨hf.1, hf.2.1, hf.2.2.1, hf.2.2.2.1, hf.2.2.2.2.1, hf.2.2.2.2.2⟩

theorem Engine.beginOp_wf (flags : Byte) {e : Engine} (h : Memory.wf e.st = true) :
    Memory.wf (e.beginOp F flags).st = true := by
  have h1 : ∀ ff, Memory.wf ((e.negotiate flags).frameBytes F ff).st = true := fun ff =>
    Engine.walk_wf F absorbRule _ (e := { e.negotiate flags with posBegin := (e.negotiate flags).pos + 1 }) h
  simp only [Engine.beginOp, Engine.forceConfidential]
  split
  · exact Engine.forceF_wf F (h1 _)
  · exact h1 _

theorem Engine.beginOp_pos_lt (flags : Byte) {e : Engine} (h : e.pos < e.rate) : (e.beginOp F flags).pos < e.rate := by
  have h1 : ∀ ff, ((e.negotiate flags).frameBytes F ff).pos < e.rate := fun ff =>
    Engine.walk_pos_lt F absorbRule _ (e := { e.negotiate flags with posBegin := (e.negotiate flags).pos + 1 }) h
  simp only [Engine.beginOp, Engine.forceConfidential]
  split
  · rw [Engine.forceF_pos]; exact Nat.zero_lt_of_lt h
  · exact h1 _

theorem Engine.beginOp_begin (flags : Byte) (e : Engine) :
    (e.beginOp F flags).posBegin ≤ (e.beginOp F flags).pos ∧
      ((e.beginOp F flags).posBegin = (e.beginOp F flags).pos → (e.beginOp F flags).pos = 0) := by
  have h1 : ∀ ff, ((e.negotiate flags).frameBytes F ff).posBegin ≤ ((e.negotiate flags).frameBytes F ff).pos ∧
      (((e.negotiate flags).frameBytes F ff).posBegin = ((e.negotiate flags).frameBytes F ff).pos →
        ((e.negotiate flags).frameBytes F ff).pos = 0) := fun ff =>
    Engine.frameBytes_begin F ff (e.negotiate flags)
  simp only [Engine.beginOp, Engine.forceConfidential]
  split
  · rw [Engine.forceF]
    split
    · exact h1 _
    · exact ⟨le_refl _, fun _ => rfl⟩
  · exact h1 _

/-! ### The window -/

theorem Engine.windowOk_iff (e : Engine) : e.windowOk = true ↔ e.pos < e.rate ∧ e.rate ≤ 198 := by
  rw [Engine.windowOk, Bool.and_eq_true, decide_eq_true_eq, decide_eq_true_eq]
  simp only [padReserve, stateBytes]
  omega

/-- An initialised engine that meets R31 has its cursor inside a window that fits the buffer. -/
theorem Engine.Ready.windowOk {e : Engine} (h : e.Ready) : e.windowOk = true := by
  obtain ⟨hi, _, _, hl⟩ := h
  obtain ⟨_, hrate, hpos, _⟩ := hl hi
  rw [Engine.windowOk_iff]
  refine ⟨hpos, ?_⟩
  rw [hrate]
  simp only [Level.initialRate, stateBytes, padReserve]
  omega

theorem Engine.Ready.rate_cases {e : Engine} (h : e.Ready) : e.rate = 166 ∨ e.rate = 134 := by
  obtain ⟨hi, _, _, hl⟩ := h
  obtain ⟨hlev, hrate, _⟩ := hl hi
  rw [hrate]
  cases hs : e.securityLevel with
  | unset => exact absurd hs hlev
  | bits128 => exact .inl rfl
  | bits256 => exact .inr rfl

/-! ### The OP command -/

/-- An operation is the OP command with its flag byte (R150). -/
theorem exec_of_opView {i : Instr} {v : OpView} (h : i.opView = some v) (s : State) :
    exec i s = execOp v.flags v.engine v.more v.len v.din s := by
  cases i <;> simp only [Instr.opView, Option.some.injEq, reduceCtorEq] at h <;> subst h <;> rfl

/-- No named operation and no un-named code has a reserved flag bit. -/
theorem opView_not_reserved {i : Instr} {v : OpView} (h : i.opView = some v) : reservedSet v.flags = false := by
  cases i <;> simp only [Instr.opView, Option.some.injEq, reduceCtorEq] at h <;> subst h <;>
    simp only [StreamOp.view, CountOp.view] <;>
    first
      | decide
      | (rename_i m a; cases m <;> decide)

theorem opView_writes {i : Instr} {v : OpView} (h : i.opView = some v) : i.writes = v.engine := by
  cases i <;> simp only [Instr.opView, Option.some.injEq, reduceCtorEq] at h <;> subst h <;> rfl

variable {flags : Byte} {t : Nat} {more : Bool} {len : Nat} {din : List Byte} {s s' : State} {e : Engine}

theorem execOp_missing (h : s.engines[t]? = none) :
    execOp flags t more len din s = .fault (.noSuchEngine t) := by
  rw [execOp, h]

/-- A command that fails a check: the status, and nothing else (R207). -/
theorem execOp_refused {st : Status} (h : s.engines[t]? = some e) (hp : e.precheck flags more = some st) :
    execOp flags t more len din s = .next (s.responded st []) := by
  simp only [execOp, h, hp]
  rfl

/-- A command that passes its checks and whose stream has its length. -/
theorem execOp_runs (h : s.engines[t]? = some e) (hp : e.precheck flags more = none) (hw : e.windowOk = true)
    (hl : streamMismatch flags len din = false) :
    execOp flags t more len din s =
      .next (s.completed t (e.opResult (paramF s.params) flags more len din).1
        (finalStatus flags (e.opResult (paramF s.params) flags more len din).2)
        (finalOutput flags (e.opResult (paramF s.params) flags more len din).2)) := by
  simp only [execOp, h, hp, hw, hl]
  rfl

/-- Everything an OP command that gives a next state can have done: a check failed, or it ran. -/
theorem execOp_next (h : execOp flags t more len din s = .next s') :
    ∃ e, s.engines[t]? = some e ∧
      ((∃ st, e.precheck flags more = some st ∧ s' = s.responded st []) ∨
        (e.precheck flags more = none ∧ e.windowOk = true ∧ streamMismatch flags len din = false ∧
          s' = s.completed t (e.opResult (paramF s.params) flags more len din).1
            (finalStatus flags (e.opResult (paramF s.params) flags more len din).2)
            (finalOutput flags (e.opResult (paramF s.params) flags more len din).2))) := by
  cases hg : s.engines[t]? with
  | none => rw [execOp_missing hg] at h; cases h
  | some e =>
    refine ⟨e, rfl, ?_⟩
    cases hp : e.precheck flags more with
    | some st =>
      rw [execOp_refused hg hp] at h
      cases h
      exact .inl ⟨st, rfl, rfl⟩
    | none =>
      cases hw : e.windowOk with
      | false => simp [execOp, hg, hp, hw] at h
      | true =>
        cases hl : streamMismatch flags len din with
        | true => simp [execOp, hg, hp, hw, hl] at h
        | false =>
          rw [execOp_runs hg hp hw hl] at h
          cases h
          exact .inr ⟨rfl, rfl, rfl, rfl⟩

/-- The checks passed (R120 steps 1 to 3). -/
theorem Engine.precheck_eq_none_iff :
    e.precheck flags more = none ↔
      reservedSet flags = false ∧ e.initialized = true ∧ (more = true → flags = e.activeFlags) := by
  rw [Engine.precheck]
  cases hr : reservedSet flags <;> cases hi : e.initialized <;> cases more <;> simp

/-- The statuses a check can give. -/
theorem Engine.precheck_status {st : Status} (h : e.precheck flags more = some st) :
    st = .configurationError ∨ st = .streamingProtocolViolation := by
  rw [Engine.precheck] at h
  split at h
  · exact .inl (Option.some.inj h).symm
  · split at h
    · exact .inl (Option.some.inj h).symm
    · split at h
      · exact .inr (Option.some.inj h).symm
      · cases h

/-! ### What a command that ran leaves of the record -/

theorem Engine.enterOp_frame (e : Engine) :
    (e.enterOp F flags more).securityLevel = e.securityLevel ∧ (e.enterOp F flags more).rate = e.rate ∧
      (e.enterOp F flags more).padMode = e.padMode ∧ (e.enterOp F flags more).initialized = e.initialized ∧
      (e.enterOp F flags more).role = (if more then e.role else decideRole flags e.role) ∧
      (e.enterOp F flags more).activeFlags = (if more then e.activeFlags else flags) := by
  cases more with
  | true => exact ⟨rfl, rfl, rfl, rfl, rfl, rfl⟩
  | false =>
    obtain ⟨h1, h2, h3, _, h5, h6⟩ := Engine.beginOp_frame F flags e
    exact ⟨h1, h2, h5, h6, h3, rfl⟩

theorem Engine.enterOp_pos_lt (h : e.pos < e.rate) : (e.enterOp F flags more).pos < e.rate := by
  cases more with
  | true => exact h
  | false => exact Engine.beginOp_pos_lt F flags h

theorem Engine.enterOp_wf (h : Memory.wf e.st = true) : Memory.wf (e.enterOp F flags more).st = true := by
  cases more with
  | true => exact h
  | false => exact Engine.beginOp_wf F flags h

theorem Engine.enterOp_begin (hb : e.posBegin ≤ e.pos ∧ (e.posBegin = e.pos → e.pos = 0)) :
    (e.enterOp F flags more).posBegin ≤ (e.enterOp F flags more).pos ∧
      ((e.enterOp F flags more).posBegin = (e.enterOp F flags more).pos → (e.enterOp F flags more).pos = 0) := by
  cases more with
  | true => exact hb
  | false => exact Engine.beginOp_begin F flags e

/-- The record after an OP command that ran, field by field, but for the buffer and the cursor. -/
theorem Engine.opResult_frame (h : e.pos < e.rate) :
    (e.opResult F flags more len din).1.securityLevel = e.securityLevel ∧
      (e.opResult F flags more len din).1.rate = e.rate ∧ (e.opResult F flags more len din).1.padMode = e.padMode ∧
      (e.opResult F flags more len din).1.initialized = e.initialized ∧
      (e.opResult F flags more len din).1.role = (if more then e.role else decideRole flags e.role) ∧
      (e.opResult F flags more len din).1.activeFlags = (if more then e.activeFlags else flags) := by
  obtain ⟨a1, a2, a3, a4, a5, a6⟩ := Engine.enterOp_frame F (flags := flags) (more := more) e
  obtain ⟨b1, b2, b3, b4, b5, b6⟩ := Engine.runPrim_sameFrame F flags len din (e := e.enterOp F flags more)
    (by rw [a2]; exact Engine.enterOp_pos_lt F h)
  exact ⟨b1.trans a1, b2.trans a2, b5.trans a3, b6.trans a4, b3.trans a5, b4.trans a6⟩

theorem Engine.opResult_pos_lt (h : e.pos < e.rate) : (e.opResult F flags more len din).1.pos < e.rate := by
  have hr := (Engine.enterOp_frame F (flags := flags) (more := more) e).2.1
  have := Engine.runPrim_pos_lt F flags len din (e := e.enterOp F flags more)
    (by rw [hr]; exact Engine.enterOp_pos_lt F h)
  rwa [hr] at this

theorem Engine.opResult_wf (h : e.pos < e.rate) (hm : Memory.wf e.st = true) :
    Memory.wf (e.opResult F flags more len din).1.st = true := by
  have hr := (Engine.enterOp_frame F (flags := flags) (more := more) e).2.1
  exact Engine.runPrim_wf F flags len din (by rw [hr]; exact Engine.enterOp_pos_lt F h) (Engine.enterOp_wf F hm)

theorem Engine.opResult_begin (h : e.pos < e.rate) (hb : e.posBegin ≤ e.pos ∧ (e.posBegin = e.pos → e.pos = 0)) :
    (e.opResult F flags more len din).1.posBegin ≤ (e.opResult F flags more len din).1.pos ∧
      ((e.opResult F flags more len din).1.posBegin = (e.opResult F flags more len din).1.pos →
        (e.opResult F flags more len din).1.pos = 0) := by
  have hr := (Engine.enterOp_frame F (flags := flags) (more := more) e).2.1
  exact Engine.runPrim_begin F flags len din (by rw [hr]; exact Engine.enterOp_pos_lt F h) (Engine.enterOp_begin F hb)

/-! ### The accumulator of R159 -/

theorem foldl_or_eq_zero (bs : List Byte) (a : Byte) :
    bs.foldl (· ||| ·) a = 0 ↔ a = 0 ∧ ∀ b ∈ bs, b = 0 := by
  induction bs generalizing a with
  | nil => simp
  | cons b bs ih =>
    rw [List.foldl_cons, ih, List.forall_mem_cons, ← and_assoc]
    exact and_congr_left fun _ => BitVec.or_eq_zero_iff

/-- The OR of all bytes is zero exactly when every byte is. -/
theorem orAll_eq_zero (bs : List Byte) : orAll bs = 0 ↔ ∀ b ∈ bs, b = 0 := by
  simpa [orAll] using foldl_or_eq_zero bs 0

theorem finalStatus_cases (produced : List Byte) :
    finalStatus flags produced = .ok ∨ finalStatus flags produced = .authenticationError := by
  rw [finalStatus]
  split
  · exact .inr rfl
  · exact .inl rfl

/-! ### INIT, CLONE, RESET -/

/-- Everything an INIT that gives a next state can have done. -/
theorem execInit_next {sec : BitVec 16} {label : List Byte} (h : execInit t sec len label s = .next s') :
    t < s.engines.length ∧
      ((Level.ofSec sec = none ∧ s' = s.responded .configurationError []) ∨
        (∃ level, Level.ofSec sec = some level ∧ label.length = len ∧
          s' = s.completed t (initEngine (paramF s.params) s.params.separator level label) .ok [])) := by
  rw [execInit] at h
  split at h
  · refine ⟨‹_›, ?_⟩
    split at h
    · cases h; exact .inl ⟨‹_›, rfl⟩
    · split at h
      · cases h; exact .inr ⟨_, ‹_›, ‹_›, rfl⟩
      · cases h
  · cases h

/-- Everything a CLONE can do. -/
theorem execClone_next {src dst : Nat} :
    (∃ e, s.engines[src]? = some e ∧ 2 ≤ s.engines.length ∧ dst < s.engines.length ∧ src ≠ dst ∧
        e.initialized = true ∧ execClone src dst s = .next (s.completed dst e .ok [])) ∨
      execClone src dst s = .next (s.responded .configurationError []) := by
  rw [execClone]
  cases hg : s.engines[src]? with
  | none => exact .inr rfl
  | some e =>
    simp only []
    split
    · rename_i h; exact .inl ⟨e, rfl, h.1, h.2.1, h.2.2.1, h.2.2.2, rfl⟩
    · exact .inr rfl

theorem execReset_next (h : execReset t s = .next s') :
    t < s.engines.length ∧ s' = s.completed t Engine.reset .ok [] := by
  rw [execReset] at h
  split at h
  · cases h; exact ⟨‹_›, rfl⟩
  · cases h

end Sys2Proof.Machine
end

