-- ==== Sys2Proof/Laws/Operations.lean ====
section
/-!
SUPPORT. The laws of a whole operation: a walk that stays in its block or ends it, a walk on two engines
in the same duplex state, the flag byte by its bits, framing with and without the forced permutation, the
status and the output of a completed command, and what an operation answers on an engine that is ready.
-/

namespace Sys2Proof.Machine

/-! ### The commands by shape -/

/-- A command is the OP command with its flag byte, or one of the three that are not operations. -/
theorem exec_shapes (i : Instr) :
    (∃ v, i.opView = some v ∧ ∀ s, exec i s = execOp v.flags v.engine v.more v.len v.din s) ∨
      (∃ t sec len label, i = .init t sec len label) ∨ (∃ a b, i = .clone a b) ∨ (∃ t, i = .reset t) := by
  cases i <;>
    first
      | exact .inl ⟨_, rfl, fun s => rfl⟩
      | exact .inr (.inl ⟨_, _, _, _, rfl⟩)
      | exact .inr (.inr (.inl ⟨_, _, rfl⟩))
      | exact .inr (.inr (.inr ⟨_, rfl⟩))

/-! ### Walks -/

variable (F : Config.Block → Config.Block) (r : ByteRule)

/-- A walk over bytes that fit the block, up to and including its last byte: the bytes under the cursor
take their new values, then the boundary test; the outputs come from the state it started with. -/
theorem Engine.walk_block (ds : List Byte) {e : Engine} (h : Memory.wf e.st = true) (hp : e.pos < e.rate)
    (hr : e.rate ≤ 198) (hl : e.pos + ds.length ≤ e.rate) :
    ∃ m, Memory.wf m = true ∧
      (∀ a, Memory.read m a = if e.pos ≤ a ∧ a < e.pos + ds.length
        then r.newState (Memory.read e.st a) (ds.getD (a - e.pos) 0) else Memory.read e.st a) ∧
      (e.walk F r ds).1 = Engine.wrap F { e with st := m, pos := e.pos + ds.length } ∧
      (e.walk F r ds).2 =
        (List.range ds.length).map fun k => r.output (Memory.read e.st (e.pos + k)) (ds.getD k 0) := by
  have hs : e.rate ≤ stateBytes := by simp only [stateBytes]; omega
  have out : (∀ i, i < ds.length → (e.walk F r ds).2.getD i 0 = r.output (Memory.read e.st (e.pos + i)) (ds.getD i 0)) →
      (e.walk F r ds).2 =
        (List.range ds.length).map fun k => r.output (Memory.read e.st (e.pos + k)) (ds.getD k 0) := by
    intro ho
    apply List.ext_getElem
    · simp [Engine.walk_length]
    · intro i h1 h2
      rw [Engine.walk_length] at h1
      have := ho i h1
      simp only [List.getD_eq_getElem?_getD, List.getElem?_eq_getElem h1,
        List.getElem?_eq_getElem (show i < (e.walk F r ds).2.length by rwa [Engine.walk_length]), Option.getD_some] at this
      simpa [List.getD_eq_getElem?_getD, List.getElem?_eq_getElem h1] using this
  rcases Nat.lt_or_eq_of_le hl with h1 | h1
  · obtain ⟨m, a1, a2, a3, a4⟩ := Engine.walk_inside F r ds h h1 hs
    refine ⟨m, a2, a3, ?_, out a4⟩
    rw [a1, Engine.wrap, if_neg (by show ¬ (e.pos + ds.length = e.rate); omega)]
  · obtain ⟨m, a1, a2, a3, a4⟩ := Engine.walk_to_boundary F r ds h (by omega) h1 hs
    refine ⟨m, a2, by rw [h1]; exact a3, ?_, out a4⟩
    rw [a1, Engine.wrap, if_pos (by exact h1), h1]

/-- An output byte that is still inside the first block comes from the state the walk started with. -/
theorem Engine.walk_output (ds : List Byte) {e : Engine} (h : Memory.wf e.st = true) (hp : e.pos < e.rate)
    (hr : e.rate ≤ 198) (k : Nat) (hk : k < ds.length) (hb : e.pos + k < e.rate) :
    (e.walk F r ds).2.getD k 0 = r.output (Memory.read e.st (e.pos + k)) (ds.getD k 0) := by
  have hlen : k < (ds.take (k + 1)).length := by simp; omega
  obtain ⟨m, _, _, _, a4⟩ := Engine.walk_block F r (ds.take (k + 1)) h hp hr (by simp; omega)
  have hd : (e.walk F r ds).2.getD k 0 = (e.walk F r (ds.take (k + 1))).2.getD k 0 := by
    conv_lhs => rw [← List.take_append_drop (k + 1) ds, Engine.walk_append]
    simp only [List.getD_eq_getElem?_getD]
    rw [List.getElem?_append_left (by rw [Engine.walk_length]; exact hlen)]
  rw [hd, a4]
  simp only [List.getD_eq_getElem?_getD, List.getElem?_map, List.getElem?_range hlen]
  simp [List.getElem?_take]

/-- Two rules that agree on the bytes walked over give the same walk, outputs included. -/
theorem Engine.walk_ext {r r' : ByteRule} (ds ds' : List Byte) (hl : ds.length = ds'.length)
    (hn : ∀ s i, i < ds.length → r.newState s (ds.getD i 0) = r'.newState s (ds'.getD i 0) ∧
      r.output s (ds.getD i 0) = r'.output s (ds'.getD i 0)) (e : Engine) :
    e.walk F r ds = e.walk F r' ds' := by
  induction ds generalizing ds' e with
  | nil =>
    have : ds' = [] := List.length_eq_zero_iff.mp (by simpa using hl.symm)
    subst this; rfl
  | cons d ds ih =>
    cases ds' with
    | nil => simp at hl
    | cons d' ds' =>
      have h0 := hn (Memory.read e.st e.pos) 0 (by simp)
      simp only [List.getD_cons_zero] at h0
      have hs : e.step1 F r d = e.step1 F r' d' := by rw [Engine.step1, Engine.step1, h0.1]
      rw [Engine.walk_cons, Engine.walk_cons, hs, h0.2,
        ih ds' (by simpa using hl) (fun s i hi => by simpa using hn s (i + 1) (by simpa using hi)) _]

/-- The recorded flag byte has no part in a walk. -/
theorem Engine.walk_activeFlags (ds : List Byte) (e : Engine) (f : Byte) :
    Engine.walk F r ds { e with activeFlags := f } =
      ({ (e.walk F r ds).1 with activeFlags := f }, (e.walk F r ds).2) := by
  induction ds generalizing e with
  | nil => rfl
  | cons d ds ih =>
    have : Engine.step1 F r d { e with activeFlags := f } = { e.step1 F r d with activeFlags := f } := by
      simp only [Engine.step1, Engine.advance, Engine.wrap]; split <;> rfl
    rw [Engine.walk_cons, this, ih, Engine.walk_cons]

/-- Walks over the same bytes keep two engines in the same duplex state and output the same (R139). -/
theorem Engine.walk_sameDuplex (ds : List Byte) {a b : Engine} (h : a.SameDuplex b) :
    (a.walk F r ds).1.SameDuplex (b.walk F r ds).1 ∧ (a.walk F r ds).2 = (b.walk F r ds).2 := by
  induction ds generalizing a b with
  | nil => exact ⟨h, rfl⟩
  | cons d ds ih =>
    have h1 : (a.step1 F r d).SameDuplex (b.step1 F r d) := by
      obtain ⟨h1, h2, h3, h4, h5⟩ := h
      simp only [Engine.step1, Engine.advance, Engine.wrap, h1, h2, h4]
      split
      · simp only [Engine.runF, Engine.portBlock, h5, Engine.padInject, h3]
        exact ⟨rfl, rfl, rfl, rfl, rfl⟩
      · exact ⟨rfl, rfl, h3, rfl, h5⟩
    obtain ⟨i1, i2⟩ := ih h1
    rw [Engine.walk_cons, Engine.walk_cons, i2]
    exact ⟨i1, by rw [h.1, h.2.1]⟩

/-! ### The flag byte by its bits -/

theorem decideRole_eq (f : Byte) (role : Role) :
    decideRole f role =
      if f.getLsbD 3 = true ∧ role = .undecided then (if f.getLsbD 0 then .responder else .initiator) else role := by
  have h3 : hasFlag f flagT = f.getLsbD 3 := by revert f; decide +kernel
  have h0 : hasFlag f flagI = f.getLsbD 0 := by revert f; decide +kernel
  rw [decideRole, h3, h0]
  cases f.getLsbD 3 <;> cases role <;> simp

/-- Role adjustment does not reach the bits that force the permutation (R125, R127). -/
theorem hasFlag_framedFlags (f : Byte) (role : Role) :
    hasFlag (framedFlags f role) (flagC ||| flagK) = (f &&& 0x24 != 0) := by
  cases role <;> revert f <;> decide +kernel

theorem withheld_iff (f : Byte) : withheld f = true ↔ f &&& 0x0F = 0x0D := by
  simp [withheld, lowCode]

/-! ### Framing -/

theorem Engine.beginOp_of_not_confidential (f : Byte) (e : Engine) (hf : f &&& 0x24 = 0) :
    e.beginOp F f = (e.negotiate f).frameBytes F (framedFlags f (decideRole f e.role)) := by
  simp only [Engine.beginOp, Engine.forceConfidential, hasFlag_framedFlags, hf, Engine.negotiate_role]
  rfl

theorem Engine.beginOp_of_confidential (f : Byte) (e : Engine) (hf : f.getLsbD 2 = true) :
    e.beginOp F f = ((e.negotiate f).frameBytes F (framedFlags f (decideRole f e.role))).forceF F := by
  have : (f &&& 0x24 != 0) = true := by revert f; decide +kernel
  simp only [Engine.beginOp, Engine.forceConfidential, hasFlag_framedFlags, this, Engine.negotiate_role]
  rfl

/-! ### A completed operation -/

/-- The status and the output stream of a command that ran, by its low code and the bytes produced. -/
theorem final_eq (f : Byte) (o : List Byte) :
    finalStatus f o = (if f &&& 0x0F = 0x0D ∧ (∃ b ∈ o, b ≠ 0) then .authenticationError else .ok) ∧
      finalOutput f o = (if f &&& 0x0F = 0x0D then [] else o) := by
  have h : orAll o ≠ 0 ↔ ∃ b ∈ o, b ≠ 0 := by rw [Ne, orAll_eq_zero]; push Not; rfl
  constructor
  · rw [finalStatus]
    apply if_congr _ rfl rfl
    rw [Bool.and_eq_true, withheld_iff, bne_iff_ne, h]
  · rw [finalOutput]
    apply if_congr _ rfl rfl
    rw [withheld_iff]

theorem finalStatus_ok_iff (f : Byte) (o : List Byte) :
    finalStatus f o = .ok ↔ withheld f = false ∨ orAll o = 0 := by
  rw [finalStatus]
  cases withheld f <;> by_cases h : orAll o = 0 <;> simp [h]

theorem Engine.Ready.pos_lt {e : Engine} (h : e.Ready) : e.pos < e.rate := (h.2.2.2 h.1).2.2.1

/-- The length agreement, as the machine checks it. -/
theorem streamMismatch_of_lengthsAgree {v : OpView} (h : v.lengthsAgree) :
    streamMismatch v.flags v.len v.din = false := by
  rw [streamMismatch]
  cases ht : takesInput (primOf v.flags) with
  | false => rfl
  | true => simp [h ht]

/-- An operation on an engine that is ready, with its lengths in agreement and, if it continues, the flag
byte of the operation that is open: it runs. -/
theorem exec_ready {i : Instr} {v : OpView} {s : State} {e : Engine} (hv : i.opView = some v)
    (hg : s.engines[v.engine]? = some e) (hR : e.Ready) (hl : v.lengthsAgree)
    (hm : v.more = true → v.flags = e.activeFlags) :
    exec i s = .next (s.completed v.engine (e.opResult (paramF s.params) v.flags v.more v.len v.din).1
      (finalStatus v.flags (e.opResult (paramF s.params) v.flags v.more v.len v.din).2)
      (finalOutput v.flags (e.opResult (paramF s.params) v.flags v.more v.len v.din).2)) := by
  rw [exec_of_opView hv]
  exact execOp_runs hg (Engine.precheck_eq_none_iff.mpr ⟨opView_not_reserved hv, hR.1, hm⟩) hR.windowOk
    (streamMismatch_of_lengthsAgree hl)

/-! ### The engines behind the port -/

/-- Writing back the record an engine already has changes nothing. -/
theorem set_same_engine {s : State} {k : Nat} {e : Engine} (h : s.engines[k]? = some e) :
    s.engines.set k e = s.engines := by
  apply List.ext_getElem?
  intro j
  rw [List.getElem?_set]
  split
  · rename_i hj; subst hj; rw [h, if_pos (List.getElem?_eq_some_iff.mp h).1]
  · rfl

/-- A command on engine `a` leaves every other record. -/
theorem completed_other_engine {s : State} {a b : Nat} {x eb : Engine} {st : Status} {o : List Byte} (hab : a ≠ b)
    (h : s.engines[b]? = some eb) : (s.completed a x st o).engines[b]? = some eb := by
  simp [hab, h]

end Sys2Proof.Machine
end

