-- ==== Sys2Proof/Laws/PerInstr.lean ====
section
/-!
SUPPORT. One fact of every command as syntax: the word the encoder gives it has the pattern, under the mask,
of the row of spec/opcode_table.json that carries its mnemonic.
-/

namespace Sys2Proof.Laws.TableRow

/-- The word of `i` belongs to the table's row for `i`. -/
def Statement (i : Instr) : Prop :=
  ∃ row ∈ opcodeRows, row.mnemonic = i.mnemonic ∧ (encode i).word &&& row.mask = row.pattern

/-- `more` is the one bit that the row of a named operation leaves open. -/
theorem named_word {f : Byte} {p : CmdWord} (h : ∀ m, makeWord 0 m f &&& 0xFEFF = p) (m : Bool) :
    makeWord 0 m f &&& 0xFEFF = p := h m

theorem ad (a : StreamOp) : Statement (.ad a) :=
  ⟨⟨"AD", 0x0002, 0xFEFF⟩, by decide, rfl, named_word (by decide) a.more⟩

theorem metaAD (a : StreamOp) : Statement (.metaAD a) :=
  ⟨⟨"metaAD", 0x0012, 0xFEFF⟩, by decide, rfl, named_word (by decide) a.more⟩

theorem key (a : StreamOp) : Statement (.key a) :=
  ⟨⟨"KEY", 0x0006, 0xFEFF⟩, by decide, rfl, named_word (by decide) a.more⟩

theorem metaKEY (a : StreamOp) : Statement (.metaKEY a) :=
  ⟨⟨"metaKEY", 0x0016, 0xFEFF⟩, by decide, rfl, named_word (by decide) a.more⟩

theorem sendCLR (a : StreamOp) : Statement (.sendCLR a) :=
  ⟨⟨"sendCLR", 0x000A, 0xFEFF⟩, by decide, rfl, named_word (by decide) a.more⟩

theorem metaSendCLR (a : StreamOp) : Statement (.metaSendCLR a) :=
  ⟨⟨"metaSendCLR", 0x001A, 0xFEFF⟩, by decide, rfl, named_word (by decide) a.more⟩

theorem recvCLR (a : StreamOp) : Statement (.recvCLR a) :=
  ⟨⟨"recvCLR", 0x000B, 0xFEFF⟩, by decide, rfl, named_word (by decide) a.more⟩

theorem metaRecvCLR (a : StreamOp) : Statement (.metaRecvCLR a) :=
  ⟨⟨"metaRecvCLR", 0x001B, 0xFEFF⟩, by decide, rfl, named_word (by decide) a.more⟩

theorem sendENC (a : StreamOp) : Statement (.sendENC a) :=
  ⟨⟨"sendENC", 0x000E, 0xFEFF⟩, by decide, rfl, named_word (by decide) a.more⟩

theorem metaSendENC (a : StreamOp) : Statement (.metaSendENC a) :=
  ⟨⟨"metaSendENC", 0x001E, 0xFEFF⟩, by decide, rfl, named_word (by decide) a.more⟩

theorem recvENC (a : StreamOp) : Statement (.recvENC a) :=
  ⟨⟨"recvENC", 0x000F, 0xFEFF⟩, by decide, rfl, named_word (by decide) a.more⟩

theorem metaRecvENC (a : StreamOp) : Statement (.metaRecvENC a) :=
  ⟨⟨"metaRecvENC", 0x001F, 0xFEFF⟩, by decide, rfl, named_word (by decide) a.more⟩

theorem sendMAC (a : CountOp) : Statement (.sendMAC a) :=
  ⟨⟨"sendMAC", 0x000C, 0xFEFF⟩, by decide, rfl, named_word (by decide) a.more⟩

theorem metaSendMAC (a : CountOp) : Statement (.metaSendMAC a) :=
  ⟨⟨"metaSendMAC", 0x001C, 0xFEFF⟩, by decide, rfl, named_word (by decide) a.more⟩

theorem recvMAC (a : StreamOp) : Statement (.recvMAC a) :=
  ⟨⟨"recvMAC", 0x000D, 0xFEFF⟩, by decide, rfl, named_word (by decide) a.more⟩

theorem metaRecvMAC (a : StreamOp) : Statement (.metaRecvMAC a) :=
  ⟨⟨"metaRecvMAC", 0x001D, 0xFEFF⟩, by decide, rfl, named_word (by decide) a.more⟩

theorem prf (a : CountOp) : Statement (.prf a) :=
  ⟨⟨"PRF", 0x0007, 0xFEFF⟩, by decide, rfl, named_word (by decide) a.more⟩

theorem metaPRF (a : CountOp) : Statement (.metaPRF a) :=
  ⟨⟨"metaPRF", 0x0017, 0xFEFF⟩, by decide, rfl, named_word (by decide) a.more⟩

theorem ratchet (a : CountOp) : Statement (.ratchet a) :=
  ⟨⟨"RATCHET", 0x0004, 0xFEFF⟩, by decide, rfl, named_word (by decide) a.more⟩

theorem metaRATCHET (a : CountOp) : Statement (.metaRATCHET a) :=
  ⟨⟨"metaRATCHET", 0x0014, 0xFEFF⟩, by decide, rfl, named_word (by decide) a.more⟩

/-- `more` and M are the bits that the row of an un-named code leaves open. -/
theorem unnamed_word {f : Byte} {p : CmdWord} (h : ∀ k m, makeWord 0 k (withM m f) &&& 0xFEEF = p) (k m : Bool) :
    makeWord 0 k (withM m f) &&& 0xFEEF = p := h k m

theorem op00 (m : Bool) (a : StreamOp) : Statement (.op00 m a) :=
  ⟨⟨"OP.00", 0x0000, 0xFEEF⟩, by decide, rfl, unnamed_word (by decide) a.more m⟩

theorem op01 (m : Bool) (a : StreamOp) : Statement (.op01 m a) :=
  ⟨⟨"OP.01", 0x0001, 0xFEEF⟩, by decide, rfl, unnamed_word (by decide) a.more m⟩

theorem op03 (m : Bool) (a : StreamOp) : Statement (.op03 m a) :=
  ⟨⟨"OP.03", 0x0003, 0xFEEF⟩, by decide, rfl, unnamed_word (by decide) a.more m⟩

theorem op05 (m : Bool) (a : StreamOp) : Statement (.op05 m a) :=
  ⟨⟨"OP.05", 0x0005, 0xFEEF⟩, by decide, rfl, unnamed_word (by decide) a.more m⟩

theorem op08 (m : Bool) (a : StreamOp) : Statement (.op08 m a) :=
  ⟨⟨"OP.08", 0x0008, 0xFEEF⟩, by decide, rfl, unnamed_word (by decide) a.more m⟩

theorem op09 (m : Bool) (a : StreamOp) : Statement (.op09 m a) :=
  ⟨⟨"OP.09", 0x0009, 0xFEEF⟩, by decide, rfl, unnamed_word (by decide) a.more m⟩

theorem init (engine : Nat) (sec : BitVec 16) (len : Nat) (label : List Byte) :
    Statement (.init engine sec len label) :=
  ⟨⟨"INIT", 0x0200, 0xFFFF⟩, by decide, rfl, by show makeWord 1 false 0 &&& 0xFFFF = 0x0200; decide⟩

theorem clone (src dst : Nat) : Statement (.clone src dst) :=
  ⟨⟨"CLONE", 0x0400, 0xFFFF⟩, by decide, rfl, by show makeWord 2 false 0 &&& 0xFFFF = 0x0400; decide⟩

theorem reset (engine : Nat) : Statement (.reset engine) :=
  ⟨⟨"RESET", 0x0600, 0xFFFF⟩, by decide, rfl, by show makeWord 3 false 0 &&& 0xFFFF = 0x0600; decide⟩

end Sys2Proof.Laws.TableRow
end

