-- ==== Sys2Proof/Tests/Slice0.lean ====
section
/-!
SUPPORT. The model's own tests: the static check refuses ill-formed commands, words written out bit by bit
from spec/30_encoding.md decode as they should, single steps against spec/95_test_vectors.md, and for each
obligation that has hypotheses a concrete state and operands that meet them (`test_meets_<Obligation>`).
-/

namespace Sys2Proof.Tests

open Machine

/-! ### The static check (20 R50) -/

theorem test_wellFormed_stream : (Instr.ad ⟨0, false, 2, [0x61, 0x62]⟩).wellFormed = true := by decide

theorem test_illFormed_short_stream : (Instr.ad ⟨0, false, 3, [0x61, 0x62]⟩).wellFormed = false := by decide

theorem test_illFormed_long_stream : (Instr.metaRecvMAC ⟨0, true, 0, [0x61]⟩).wellFormed = false := by decide

theorem test_illFormed_unnamed_stream : (Instr.op09 true ⟨0, false, 1, []⟩).wellFormed = false := by decide

theorem test_illFormed_label : (Instr.init 0 128 4 [0x61]).wellFormed = false := by decide

/-! ### Decoding: words written from 30 R63 as zero [15:11], kind [10:9], more [8], flags [7:0] -/

/-- The flag bytes of the ten operations (30 R66), bits K K K M T C A I. -/
theorem test_decode_named :
    [0b00000_00_0_00000010, 0b00000_00_0_00000110, 0b00000_00_0_00001010, 0b00000_00_0_00001011,
      0b00000_00_0_00001110, 0b00000_00_0_00001111, 0b00000_00_0_00001101].map (decodeTableWord 16) =
    [some (.ad ⟨0, false, 0, []⟩), some (.key ⟨0, false, 0, []⟩), some (.sendCLR ⟨0, false, 0, []⟩),
      some (.recvCLR ⟨0, false, 0, []⟩), some (.sendENC ⟨0, false, 0, []⟩), some (.recvENC ⟨0, false, 0, []⟩),
      some (.recvMAC ⟨0, false, 0, []⟩)] := by decide

theorem test_decode_named_counts :
    [0b00000_00_0_00001100, 0b00000_00_0_00000111, 0b00000_00_1_00000100].map (decodeTableWord 16) =
    [some (.sendMAC ⟨0, false, 0⟩), some (.prf ⟨0, false, 0⟩), some (.ratchet ⟨0, true, 0⟩)] := by decide

/-- The meta variants: the same flag bytes with bit 4 (30 R66). -/
theorem test_decode_meta :
    [0b00000_00_1_00010010, 0b00000_00_0_00010110, 0b00000_00_0_00011010, 0b00000_00_0_00011011,
      0b00000_00_0_00011110, 0b00000_00_0_00011111, 0b00000_00_0_00011101].map (decodeTableWord 16) =
    [some (.metaAD ⟨0, true, 0, []⟩), some (.metaKEY ⟨0, false, 0, []⟩), some (.metaSendCLR ⟨0, false, 0, []⟩),
      some (.metaRecvCLR ⟨0, false, 0, []⟩), some (.metaSendENC ⟨0, false, 0, []⟩),
      some (.metaRecvENC ⟨0, false, 0, []⟩), some (.metaRecvMAC ⟨0, false, 0, []⟩)] := by decide

theorem test_decode_meta_counts :
    [0b00000_00_0_00011100, 0b00000_00_1_00010111, 0b00000_00_0_00010100].map (decodeTableWord 16) =
    [some (.metaSendMAC ⟨0, false, 0⟩), some (.metaPRF ⟨0, true, 0⟩), some (.metaRATCHET ⟨0, false, 0⟩)] := by decide

/-- The six un-named codes (30 R67). -/
theorem test_decode_unnamed :
    [0b00000_00_0_00000000, 0b00000_00_0_00010001, 0b00000_00_0_00000011, 0b00000_00_1_00010101,
      0b00000_00_0_00001000, 0b00000_00_0_00011001].map (decodeTableWord 16) =
    [some (.op00 false ⟨0, false, 0, []⟩), some (.op01 true ⟨0, false, 0, []⟩), some (.op03 false ⟨0, false, 0, []⟩),
      some (.op05 true ⟨0, true, 0, []⟩), some (.op08 false ⟨0, false, 0, []⟩), some (.op09 true ⟨0, false, 0, []⟩)] := by
  decide

/-- The other three kinds (30 R63). -/
theorem test_decode_control :
    [0b00000_01_0_00000000, 0b00000_10_0_00000000, 0b00000_11_0_00000000].map (decodeTableWord 16) =
    [some (.init 0 0 0 []), some (.clone 0 0), some (.reset 0)] := by decide

/-- Reserved flag bits, reserved word bits, stray fields (30 R70; V-E1 rows 4 to 6, 8 to 10). -/
theorem test_decode_refuses :
    [0x0022, 0x0042, 0x0082, 0x0122, 0x0802, 0x8000, 0x0202, 0x0300, 0x0401, 0x0700].map (decodeTableWord 16) =
    List.replicate 10 none := by decide

/-- The operands beside the word reach the instruction. -/
theorem test_decode_operands :
    decode ⟨0x0200, 1, 2, 256, 7, 8, [0x61, 0x62]⟩ = .instr (.init 1 256 2 [0x61, 0x62]) ∧
    decode ⟨0x0400, 9, 2, 256, 0, 1, [0x61]⟩ = .instr (.clone 0 1) ∧
    decode ⟨0x0102, 1, 1, 0, 0, 0, [0x61]⟩ = .instr (.ad ⟨1, true, 1, [0x61]⟩) := by decide

/-! ### Small machines -/

/-- The next state of a command, if it gives one. -/
def after (i : Instr) (s : State) : State := (nextState (exec i s)).getD s

/-- Engine 0 after a command. -/
def engineAfter (i : Instr) (s : State) : Engine := ((after i s).engines[0]?).getD Engine.reset

/-- The last response after a command. -/
def answerOf (i : Instr) (s : State) : Response := ((after i s).responses.getLast?).getD ⟨.ok, []⟩

theorem exec_after {i : Instr} {s : State} (h : (nextState (exec i s)).isSome = true) : exec i s = .next (after i s) := by
  rw [after]
  cases hx : exec i s with
  | next t => rfl
  | fault r => rw [hx] at h; cases h
  | refused r => rw [hx] at h; cases h

/-- A machine with the given permutation unit and engines. -/
def machine (perm : Config.PermUnit) (engines : List Engine) : State :=
  { params := { perm := perm, separator := recommendedSeparator }, engines := engines, pending := [], responses := [] }

/-- An initialised engine of level 128 with the cursor where a test wants it. -/
def live (pos posBegin : Nat) (role : Role) (st : Memory) : Engine :=
  { securityLevel := .bits128, st := st, rate := 166, pos := pos, posBegin := posBegin, role := role,
    activeFlags := 0x12, padMode := .padded, initialized := true }

/-- One engine like it, with a few state bytes under the cursor, behind an identity permutation. -/
def small : State := machine .identity [live 2 1 .undecided [(2, 0x3C), (4, 0x3C)], Engine.reset]

/-- The command on engine 0 with one byte of input. -/
def one (d : Byte) : StreamOp := ⟨0, false, 1, [d]⟩

/-! ### The permutation and initialisation (V-I1, V-S1) -/

/-- V-I1: the first eight bytes after INIT 128 with the empty label, and the cursor. -/
theorem test_init_vector :
    let e := engineAfter (.init 0 128 0 []) State.reset
    (List.range 8).map (Memory.read e.st) = [0x9c, 0x7f, 0x16, 0x8f, 0xf8, 0xfd, 0x55, 0xda] ∧
      e.pos = 2 ∧ e.posBegin = 1 ∧ e.rate = 166 ∧ e.activeFlags = 0x12 := by decide +kernel

/-- V-S1: four bytes of PRF after INIT 128 "test-init". -/
theorem test_prf_vector :
    (answerOf (.prf ⟨0, false, 4⟩)
      (after (.init 0 128 9 [0x74, 0x65, 0x73, 0x74, 0x2d, 0x69, 0x6e, 0x69, 0x74]) State.reset)).dout =
    [0x76, 0x65, 0x56, 0x10] := by decide +kernel

/-- V-I3: level 192 is refused and the engine stays as it was. -/
theorem test_init_refuses_192 :
    answerOf (.init 0 192 0 []) small = ⟨.configurationError, []⟩ ∧ (after (.init 0 192 0 []) small).engines = small.engines := by
  decide

/-! ### The trigger (V-X1, V-X2, V-X3) -/

/-- V-X1: the boundary permutation pads `st[166]` and `st[167]`. -/
theorem test_boundary_pads :
    let e := Engine.absorb id [0x5A] (live 165 0x21 .undecided [(164, 0x7D), (165, 0x84), (166, 0x8B), (167, 0x92)])
    e.st = [(164, 0x7D), (165, 0xDE), (166, 0xAA), (167, 0x16)] ∧ e.pos = 0 ∧ e.posBegin = 0 := by decide +kernel

/-- V-X2: the forced permutation pads `st[pos]`, `st[pos+1]` and `st[167]`. -/
theorem test_force_pads :
    let e := Engine.forceF id (live 10 3 .undecided [(10, 0x47), (11, 0x4E), (167, 0x92)])
    e.st = [(10, 0x44), (11, 0x4A), (167, 0x12)] ∧ e.pos = 0 ∧ e.posBegin = 0 := by decide +kernel

/-- V-X3: at `pos = 0` the force does nothing. -/
theorem test_force_at_zero : Engine.forceF id (live 0 0 .undecided [(0, 1)]) = live 0 0 .undecided [(0, 1)] := by decide

/-! ### The primitives, one byte with `s = 0x3C` and `d = 0xA5` (section 4 of 95_test_vectors) -/

/-- The cursor on a byte 0x3C. -/
def byteAt4 : Engine := live 4 1 .undecided [(4, 0x3C)]

theorem test_primitives_without_output :
    (byteAt4.absorb id [0xA5]).st = [(4, 0x99)] ∧ (byteAt4.overwrite id [0xA5]).st = [(4, 0xA5)] ∧
    (byteAt4.zeroRun id 1).st = [] ∧ (byteAt4.zeroRun id 1).pos = 5 := by decide

theorem test_primitives_with_output :
    (byteAt4.absorbAndSet id [0xA5]).1.st = [(4, 0x99)] ∧ (byteAt4.absorbAndSet id [0xA5]).2 = [0x99] ∧
    (byteAt4.copyState id 1).1.st = [(4, 0x3C)] ∧ (byteAt4.copyState id 1).2 = [0x3C] ∧
    (byteAt4.exchange id [0xA5]).1.st = [(4, 0xA5)] ∧ (byteAt4.exchange id [0xA5]).2 = [0x99] ∧
    (byteAt4.squeeze id 1).1.st = [] ∧ (byteAt4.squeeze id 1).2 = [0x3C] := by decide

/-! ### Framing (V-B1, rows 3, 4, 6, 9, 10, 12) -/

theorem test_framing_rows_3_4 :
    (let e := Engine.beginOp id 0x02 (live 164 7 .undecided [])
     e.st = [(164, 0x07), (165, 0x02), (166, 0xA5), (167, 0x84)] ∧ e.pos = 0 ∧ e.posBegin = 0) ∧
    (let e := Engine.beginOp id 0x02 (live 165 7 .undecided [])
     e.st = [(0, 0x02), (165, 0x07), (166, 0xA6), (167, 0x84)] ∧ e.pos = 1 ∧ e.posBegin = 0) := by decide +kernel

theorem test_framing_row_6 :
    let e := Engine.beginOp id 0x06 (live 164 7 .undecided [])
    e.st = [(164, 0x07), (165, 0x06), (166, 0xA5), (167, 0x84)] ∧ e.pos = 0 := by decide +kernel

theorem test_framing_rows_9_10 :
    (Engine.beginOp id 0x0B (live 5 3 .responder [])).st = [(5, 0x03), (6, 0x0A)] ∧
    (Engine.beginOp id 0x0A (live 5 3 .responder [])).st = [(5, 0x03), (6, 0x0B)] := by decide

theorem test_framing_row_12 :
    let e := Engine.beginOp id 0x1F (live 5 3 .responder [])
    e.st = [(5, 0x03), (6, 0x1E), (7, 0x06), (8, 0x04), (167, 0x80)] ∧ e.role = .responder := by decide +kernel

/-! ### Each operation once, on the small machine

The expected bytes are worked by hand from the rules.  Without C: framing leaves `st[2] = 0x3C ^ 0x01 = 0x3D`
and the framed byte in `st[3]`, and the input meets `st[4] = 0x3C`.  With C and the identity as `F`:
framing, then the pad bytes `st[4] ^<- 0x03`, `st[5] ^<- 0x04`, `st[167] ^<- 0x80`, and the input starts
at `st[0] = 0`. -/

/-- The buffer after an operation on the small machine. -/
def stAfter (i : Instr) : Memory := (engineAfter i small).st

theorem test_ad : stAfter (.ad (one 0xA5)) = [(2, 0x3D), (3, 0x02), (4, 0x99)] := by decide
theorem test_metaAD : stAfter (.metaAD (one 0xA5)) = [(2, 0x3D), (3, 0x12), (4, 0x99)] := by decide
theorem test_key : stAfter (.key (one 0xA5)) = [(0, 0xA5), (2, 0x3D), (3, 0x06), (4, 0x3F), (5, 0x04), (167, 0x80)] := by
  decide +kernel
theorem test_metaKEY : stAfter (.metaKEY (one 0xA5)) = [(0, 0xA5), (2, 0x3D), (3, 0x16), (4, 0x3F), (5, 0x04), (167, 0x80)] := by
  decide +kernel
theorem test_sendCLR : stAfter (.sendCLR (one 0xA5)) = [(2, 0x3D), (3, 0x0A), (4, 0x99)] ∧
    (engineAfter (.sendCLR (one 0xA5)) small).role = .initiator := by decide
theorem test_metaSendCLR : stAfter (.metaSendCLR (one 0xA5)) = [(2, 0x3D), (3, 0x1A), (4, 0x99)] := by decide
theorem test_recvCLR : stAfter (.recvCLR (one 0xA5)) = [(2, 0x3D), (3, 0x0A), (4, 0x99)] ∧
    (engineAfter (.recvCLR (one 0xA5)) small).role = .responder := by decide
theorem test_metaRecvCLR : stAfter (.metaRecvCLR (one 0xA5)) = [(2, 0x3D), (3, 0x1A), (4, 0x99)] := by decide
theorem test_op00 : stAfter (.op00 false (one 0xA5)) = [(2, 0x3D), (4, 0x99)] := by decide
theorem test_op01 : stAfter (.op01 true (one 0xA5)) = [(2, 0x3D), (3, 0x11), (4, 0x99)] := by decide
theorem test_op03 : stAfter (.op03 false (one 0xA5)) = [(2, 0x3D), (3, 0x03), (4, 0x99)] := by decide
theorem test_op05 : stAfter (.op05 false (one 0xA5)) = [(0, 0xA5), (2, 0x3D), (3, 0x05), (4, 0x3F), (5, 0x04), (167, 0x80)] := by
  decide +kernel
theorem test_op08 : stAfter (.op08 false (one 0xA5)) = [(2, 0x3D), (3, 0x08), (4, 0x99)] := by decide
theorem test_op09 : stAfter (.op09 true (one 0xA5)) = [(2, 0x3D), (3, 0x18), (4, 0x99)] ∧
    (engineAfter (.op09 true (one 0xA5)) small).role = .responder := by decide

/-- The same machine with bytes at the start of the block, for the operations with C. -/
def smallC : State := machine .identity [live 2 1 .undecided [(0, 0x3C), (1, 0x5A)], Engine.reset]

/-- The first two bytes of the buffer and the answer. -/
def headAfter (i : Instr) : List Byte × Response :=
  ((List.range 2).map (Memory.read (engineAfter i smallC).st), answerOf i smallC)

theorem test_sendENC : headAfter (.sendENC (one 0xA5)) = ([0x99, 0x5A], ⟨.ok, [0x99]⟩) := by decide +kernel
theorem test_metaSendENC : headAfter (.metaSendENC (one 0xA5)) = ([0x99, 0x5A], ⟨.ok, [0x99]⟩) := by decide +kernel
theorem test_recvENC : headAfter (.recvENC (one 0xA5)) = ([0xA5, 0x5A], ⟨.ok, [0x99]⟩) := by decide +kernel
theorem test_metaRecvENC : headAfter (.metaRecvENC (one 0xA5)) = ([0xA5, 0x5A], ⟨.ok, [0x99]⟩) := by decide +kernel
theorem test_sendMAC : headAfter (.sendMAC ⟨0, false, 2⟩) = ([0x3C, 0x5A], ⟨.ok, [0x3C, 0x5A]⟩) := by decide +kernel
theorem test_metaSendMAC : headAfter (.metaSendMAC ⟨0, false, 1⟩) = ([0x3C, 0x5A], ⟨.ok, [0x3C]⟩) := by decide +kernel
theorem test_recvMAC : headAfter (.recvMAC (one 0x3C)) = ([0x3C, 0x5A], ⟨.ok, []⟩) := by decide +kernel
theorem test_recvMAC_bad : headAfter (.recvMAC ⟨0, false, 2, [0x3D, 0x5A]⟩) = ([0x3D, 0x5A], ⟨.authenticationError, []⟩) := by
  decide +kernel
theorem test_metaRecvMAC : headAfter (.metaRecvMAC (one 0xBC)) = ([0xBC, 0x5A], ⟨.authenticationError, []⟩) := by decide +kernel
theorem test_prf : headAfter (.prf ⟨0, false, 2⟩) = ([0x00, 0x00], ⟨.ok, [0x3C, 0x5A]⟩) := by decide +kernel
theorem test_metaPRF : headAfter (.metaPRF ⟨0, false, 1⟩) = ([0x00, 0x5A], ⟨.ok, [0x3C]⟩) := by decide +kernel
theorem test_ratchet : headAfter (.ratchet ⟨0, false, 2⟩) = ([0x00, 0x00], ⟨.ok, []⟩) := by decide +kernel
theorem test_metaRATCHET : headAfter (.metaRATCHET ⟨0, false, 1⟩) = ([0x00, 0x5A], ⟨.ok, []⟩) := by decide +kernel
theorem test_clone : (after (.clone 0 1) small).engines[1]? = small.engines[0]? ∧ answerOf (.clone 0 1) small = ⟨.ok, []⟩ := by
  decide
theorem test_reset : (after (.reset 0) small).engines = [Engine.reset, Engine.reset] := by decide

/-- The codes of R201, and the encoding of R26. -/
theorem test_codes :
    [Status.ok, .configurationError, .streamingProtocolViolation, .authenticationError].map Status.code = [0, 1, 2, 3] ∧
    [Role.undecided, .initiator, .responder].map Role.code = [0, 1, 2] := by decide

/-! ### Errors and streaming (V-E1, V-P3 item 5, V-Z1) -/

/-- V-E1 rows 1, 2 and 13. -/
theorem test_errors :
    answerOf (.ad (one 0x78)) State.reset = ⟨.configurationError, []⟩ ∧
    answerOf (.clone 0 1) State.reset = ⟨.configurationError, []⟩ ∧
    answerOf (.ad { one 0x78 with more := true }) small = ⟨.streamingProtocolViolation, []⟩ := by decide

/-- V-E1 row 14: the label operation of INIT is open and can be continued, without framing. -/
theorem test_continues_label : stAfter (.metaAD { one 0xA5 with more := true }) = [(2, 0x99), (4, 0x3C)] := by decide

/-- V-Z1: an empty opening operation is framing alone. -/
theorem test_empty_ad : stAfter (.ad ⟨0, false, 0, []⟩) = [(2, 0x3D), (3, 0x02), (4, 0x3C)] := by decide

/-- The first instruction after reset is the word the host places: RESET completes. -/
theorem test_first_step :
    ((nextState (step (State.reset.withFetchWord 16 0x0600))).map State.responses) = some [⟨.ok, []⟩] := by decide

/-! ### What the hypotheses of the obligations ask for, met

`ready` is an engine as `Engine.Ready` wants it; the boundary cases move its cursor. -/

/-- An engine that executes operations. -/
def ready : Engine := live 2 1 .undecided [(0, 0x3C), (2, 0x11)]

/-- A second party in the same duplex state. -/
def peer : Engine := { ready with activeFlags := 0x02 }

/-- Both behind one port. -/
def two : State := machine .identity [ready, peer]

/-- An engine whose cursor is `n` bytes before the end of the window. -/
def nearEnd (n : Nat) : Engine := live (166 - n) 1 .undecided [(165, 0x22)]

/-- The command of a word with one byte of input. -/
def cmd (w : Nat) : Command := { bareCommand w with len := 1, sec := 128, dst := 1, din := [0x61] }

theorem test_meets_ready : ready.Ready ∧ peer.Ready ∧ (nearEnd 1).Ready ∧ (nearEnd 3).Ready :=
  ⟨by decide, by decide, by decide, by decide⟩

/-- One command of each kind. -/
theorem test_meets_EncodeOfDecodeKeepsTheCommand :
    (decode (cmd 0x0102) = .instr (.ad ⟨0, true, 1, [0x61]⟩) ∧ (cmd 0x0102).word.extractLsb' 9 2 = 0) ∧
    (decode (cmd 0x0007) = .instr (.prf ⟨0, false, 1⟩) ∧ (cmd 0x0007).word.extractLsb' 9 2 = 0) ∧
    (decode (cmd 0x0200) = .instr (.init 0 128 1 [0x61]) ∧ (cmd 0x0200).word.extractLsb' 9 2 = 1) ∧
    (decode (cmd 0x0400) = .instr (.clone 0 1) ∧ (cmd 0x0400).word.extractLsb' 9 2 = 2) ∧
    (decode (cmd 0x0600) = .instr (.reset 0) ∧ (cmd 0x0600).word.extractLsb' 9 2 = 3) := by decide

/-- A row whose pattern a word has, and one whose pattern it has not. -/
theorem test_meets_DecoderFollowsTheOpcodeTable :
    (⟨"OP.09", 0x0009, 0xFEEF⟩ : OpcodeRow) ∈ opcodeRows ∧ (cmd 0x0119).word &&& 0xFEEF = 0x0009 ∧
    (⟨"RESET", 0x0600, 0xFFFF⟩ : OpcodeRow) ∈ opcodeRows ∧ (cmd 0x0700).word &&& 0xFFFF ≠ 0x0600 := by decide

theorem test_meets_StepRunsTheDecodedCommand :
    (∃ s : State, s.pending = cmd 0x0002 :: [] ∧ decode (cmd 0x0002) = .instr (.ad ⟨0, false, 1, [0x61]⟩)) ∧
    State.reset.pending = [] := ⟨⟨{ two with pending := [cmd 0x0002] }, rfl, by decide⟩, rfl⟩

/-- The lowest and the highest reserved bit, alone and with every other flag. -/
theorem test_meets_ReservedFlagBitsAreRefused :
    ∀ w ∈ [0x0020, 0x0080, 0x00FF, 0x01FF],
      (cmd w).word.extractLsb' 9 7 = 0 ∧ (cmd w).word.extractLsb' 0 8 &&& 0xE0 ≠ 0 := by decide

/-- Each way a word can be malformed, at both ends of its field. -/
theorem test_meets_MalformedWordsAreRefused :
    (∀ w ∈ [0x0800, 0x8000], (cmd w).word.extractLsb' 11 5 ≠ 0) ∧
    (∀ w ∈ [0x0201, 0x0480], (cmd w).word.extractLsb' 9 2 ≠ 0 ∧ (cmd w).word.extractLsb' 0 8 ≠ 0) ∧
    (∀ w ∈ [0x0300, 0x0700], (cmd w).word.extractLsb' 9 2 ≠ 0 ∧ (cmd w).word.getLsbD 8 = true) := by decide

theorem test_meets_ResetLeavesTheSpecifiedValues :
    Engine.reset ∈ State.reset.engines ++ two.hardwareReset.engines := by decide

/-- A step that runs an operation, one that refuses, and one with nothing to do, from states that meet R31. -/
theorem test_meets_StepKeepsTheInvariant :
    ∀ s ∈ [{ two with pending := [cmd 0x000E] }, { two with pending := [cmd 0x0802] }, State.reset],
      s.Inv ∧ (nextState (step s)).isSome = true := by decide +kernel

theorem test_meets_CommandsAlwaysComplete :
    let s := { two with pending := [cmd 0x0002] }
    s.Inv ∧ ∀ c rest i, s.pending = c :: rest → decode c = .instr i → i.wellFormed = true ∧ i.addressed s.engines.length := by
  refine ⟨by decide, fun c rest i h hd => ?_⟩
  cases h
  cases hd
  exact ⟨by decide, show (0 : Nat) < 2 by decide⟩

/-- An operation, an INIT, a CLONE and a RESET that each give a next state. -/
theorem test_meets_CommandsTouchOnlyTheirEngine :
    ∀ i ∈ [Instr.ad (one 0x61), .init 1 128 0 [], .clone 0 1, .reset 0], ∃ t, exec i two = .next t := by
  have h : ∀ i ∈ [Instr.ad (one 0x61), .init 1 128 0 [], .clone 0 1, .reset 0],
      (nextState (exec i two)).isSome = true := by decide +kernel
  exact fun i hi => ⟨_, exec_after (h i hi)⟩

theorem test_meets_OperationsReadOnlyTheirEngine :
    let i := Instr.ad (one 0x61)
    let s' := { two with engines := [ready, Engine.reset], responses := [⟨.ok, []⟩] }
    (∃ v, i.opView = some v ∧ s'.engines[v.engine]? = two.engines[v.engine]?) ∧ s'.params = two.params ∧
      ∃ t, exec i two = .next t ∧ ∃ r, t.responses = two.responses ++ [r] :=
  ⟨⟨_, rfl, rfl⟩, rfl, _, exec_after (by decide), _, rfl⟩

/-- Both statuses, and a rejected word for the step. -/
theorem test_meets_ErrorsBeforeMutationChangeNothing :
    (∃ t r, exec (.ad (one 0x61)) State.reset = .next t ∧ t.responses = State.reset.responses ++ [r] ∧
      r.status = .configurationError) ∧
    (∃ t r, exec (.ad { one 0x61 with more := true }) two = .next t ∧ t.responses = two.responses ++ [r] ∧
      r.status = .streamingProtocolViolation) ∧
    (∃ t r, step (two.withFetchWord 16 0x0022) = .next t ∧
      t.responses = (two.withFetchWord 16 0x0022).responses ++ [r] ∧ r.status = .configurationError) :=
  ⟨⟨_, _, exec_after (by decide), rfl, rfl⟩, ⟨_, _, exec_after (by decide), rfl, rfl⟩, ⟨_, _, rfl, rfl, rfl⟩⟩

theorem test_meets_OperationsKeepTheConfiguration :
    ∃ (v : OpView) (t : State) (e e' : Engine), (Instr.key (one 0x61)).opView = some v ∧
      exec (.key (one 0x61)) two = .next t ∧ two.engines[v.engine]? = some e ∧ t.engines[v.engine]? = some e' :=
  ⟨_, _, _, _, rfl, exec_after (by decide +kernel), rfl, rfl⟩

/-- An opening operation whose last byte is the one before the boundary, and a continuation with C. -/
theorem test_meets_OperationsWriteOnlyUnderTheCursor :
    (let e := nearEnd 4
     let v : OpView := ⟨0x02, 0, false, 1, [0x61]⟩
     (Instr.ad (one 0x61)).opView = some v ∧ e.Inv ∧ v.flags.getLsbD 2 = false ∧
       e.pos + (if v.more then 0 else 2) + v.len < e.rate ∧
       (nextState (exec (.ad (one 0x61)) (machine .identity [e]))).isSome = true) ∧
    (let e := { nearEnd 2 with activeFlags := 0x06 }
     let v : OpView := ⟨0x06, 0, true, 1, [0x61]⟩
     (Instr.key { one 0x61 with more := true }).opView = some v ∧ e.Inv ∧ v.more = true ∧
       e.pos + (if v.more then 0 else 2) + v.len < e.rate ∧
       (nextState (exec (.key { one 0x61 with more := true }) (machine .identity [e]))).isSome = true) := by decide

/-- An opening operation, and a continuation of the operation that is open. -/
theorem test_meets_AcceptedOperationsComplete :
    (∃ (v : OpView) (e : Engine), (Instr.recvMAC (one 0x61)).opView = some v ∧ two.engines[v.engine]? = some e ∧
      e.Ready ∧ v.lengthsAgree ∧ (v.more = true → v.flags = e.activeFlags)) ∧
    (∃ (v : OpView) (e : Engine), (Instr.metaAD { one 0x61 with more := true }).opView = some v ∧
      two.engines[v.engine]? = some e ∧ e.Ready ∧ v.lengthsAgree ∧ (v.more = true → v.flags = e.activeFlags)) :=
  ⟨⟨_, ready, rfl, rfl, by decide, fun _ => rfl, by decide⟩, ⟨_, ready, rfl, rfl, by decide, fun _ => rfl, by decide⟩⟩

theorem test_meets_UninitialisedEnginesRefuse :
    (∃ v : OpView, (Instr.ad (one 0x61)).opView = some v ∧ State.reset.engines[v.engine]? = some Engine.reset) ∧
    Engine.reset.initialized = false := ⟨⟨_, rfl, rfl⟩, rfl⟩

theorem test_meets_MismatchedContinuationsAreRefused :
    (∃ v : OpView, (Instr.ad { one 0x61 with more := true }).opView = some v ∧ two.engines[v.engine]? = some ready ∧
      ready.initialized = true ∧ v.more = true ∧ v.flags ≠ ready.activeFlags) ∧
    (∃ t dout, exec (.ad { one 0x61 with more := true }) two = .next t ∧
      t.responses = two.responses ++ [⟨.streamingProtocolViolation, dout⟩]) :=
  ⟨⟨_, rfl, rfl, rfl, rfl, by decide⟩, ⟨_, _, exec_after (by decide), rfl⟩⟩

/-- The four clauses: the first engine number with no engine, a short stream, a short label, and a cursor
at the end of the window or a window too wide. -/
theorem test_meets_ModelStopsWhereTheSpecGivesNoEffect :
    ¬ (Instr.reset 2).addressed two.engines.length ∧
    (∃ v : OpView, (Instr.ad ⟨0, false, 2, [0x61]⟩).opView = some v ∧ two.engines[v.engine]? = some ready ∧ ready.Ready ∧
      (v.more = true → v.flags = ready.activeFlags) ∧ ¬ v.lengthsAgree) ∧
    ((1 : Nat) < two.engines.length ∧ ((256 : BitVec 16) = 128 ∨ (256 : BitVec 16) = 256) ∧ [0x61].length ≠ 2) ∧
    ((live 166 1 .undecided []).initialized = true ∧ (live 166 1 .undecided []).rate ≤ (live 166 1 .undecided []).pos) ∧
    198 < { live 2 1 .undecided [] with rate := 199 }.rate :=
  ⟨by show ¬ (2 < 2); decide, ⟨_, rfl, rfl, by decide, by decide, fun h => absurd (h rfl) (by decide)⟩, by decide, by decide,
    by decide⟩

/-- The cursor at both ends of its range and the widest window that leaves room for the pad bytes. -/
theorem test_meets_PadInjectorXorsThreeBytes :
    ∀ e ∈ [live 0 0 .undecided [], live 166 165 .undecided [], { live 198 0 .undecided [] with rate := 198 }],
      Memory.wf e.st = true ∧ e.pos ≤ e.rate ∧ e.rate + 1 < 200 ∧ e.padMode = .padded := by decide

/-- In either mode. -/
theorem test_meets_CursorStepFiresAtTheBoundary :
    (∀ n ∈ [1, 2], Memory.wf (nearEnd n).st = true ∧ (nearEnd n).padMode = .padded ∧ (nearEnd n).rate + 1 < 200) ∧
    (let e := { nearEnd 1 with padMode := .plain }
     Memory.wf e.st = true ∧ e.rate + 1 < 200 ∧ e.pos + 1 = e.rate) ∧
    (nearEnd 2).pos + 1 < (nearEnd 2).rate ∧ (nearEnd 1).pos + 1 = (nearEnd 1).rate := by decide

/-- Bytes that fit the block two before its end. -/
abbrev FitsBlock (data : List Byte) : Prop :=
  Memory.wf (nearEnd 2).st = true ∧ (nearEnd 2).pos < (nearEnd 2).rate ∧ (nearEnd 2).rate ≤ 198 ∧
    (nearEnd 2).pos + data.length ≤ (nearEnd 2).rate

/-- No bytes, bytes up to the last but one, and bytes up to the last of the window. -/
theorem test_meets_InputPrimitivesInsideABlock : FitsBlock [] ∧ FitsBlock [1] ∧ FitsBlock [1, 2] := by decide

theorem test_meets_OutputPrimitivesInsideABlock : FitsBlock [] ∧ FitsBlock [1] ∧ FitsBlock [1, 2] := by decide

theorem test_meets_PrimitivesObeyConcatenation : (nearEnd 1).pos < (nearEnd 1).rate := by decide

theorem test_meets_PrimitivesMoveTheCursorByTheirLength :
    (nearEnd 1).pos < (nearEnd 1).rate ∧ (nearEnd 1).absorb id [] ∈ [(nearEnd 1).absorb id []] := by decide

theorem test_meets_ZeroRunIsOverwriteOfZeros : (nearEnd 166).pos < (nearEnd 166).rate := by decide

/-- With the clause on the outputs at its boundary. -/
theorem test_meets_CountedPrimitivesAsStreamPrimitives :
    (nearEnd 1).pos < (nearEnd 1).rate ∧ (nearEnd 1).pos + 1 ≤ (nearEnd 1).rate ∧ Memory.wf (nearEnd 1).st = true ∧
      (nearEnd 1).rate ≤ 198 := by decide

theorem test_meets_ExchangeDetectsAnAlteredTag :
    [0x00].length = 1 ∧ [0x00] ≠ (Engine.copyState id 1 byteAt4).2 := by decide

theorem test_meets_ControlIsIndependentOfData :
    let i := Instr.sendENC (one 0x61)
    let j := Instr.sendENC (one 0x7F)
    let s' := machine .identity [{ ready with st := [(9, 0x01)] }, peer]
    (∃ v w : OpView, i.opView = some v ∧ j.opView = some w ∧ w = { v with din := w.din } ∧
      w.din.length = v.din.length ∧ two.engines[v.engine]? = some ready ∧
      s'.engines[v.engine]? = some { ready with st := [(9, 0x01)] }) ∧
    (∃ t x r, exec i two = .next t ∧ t.engines[0]? = some x ∧ t.responses = two.responses ++ [r]) ∧
    (∃ t x r, exec j s' = .next t ∧ t.engines[0]? = some x ∧ t.responses = s'.responses ++ [r]) :=
  ⟨⟨_, _, rfl, rfl, rfl, rfl, rfl, rfl⟩, ⟨_, _, _, exec_after (by decide +kernel), rfl, rfl⟩,
    ⟨_, _, _, exec_after (by decide +kernel), rfl, rfl⟩⟩

theorem test_meets_FramedBytesByRole :
    (0x06 : Byte).getLsbD 3 = false ∧ (0x17 : Byte).getLsbD 3 = false ∧ (0x0D : Byte).getLsbD 3 = true := by decide

/-- The role is decided, the role stays for want of T, and the command is refused. -/
theorem test_meets_RoleIsDecidedOnceByATransportOperation :
    ∀ p ∈ [(Instr.recvCLR (one 0x61), two), (.ad (one 0x61), two), (.recvCLR (one 0x61), State.reset)],
      ∃ v t r, p.1.opView = some v ∧ exec p.1 p.2 = .next t ∧ (p.2.engines[v.engine]?).isSome = true ∧
        (t.engines[v.engine]?).isSome = true ∧ t.responses = p.2.responses ++ [r] := by
  intro p hp
  simp only [List.mem_cons, List.not_mem_nil, or_false] at hp
  rcases hp with rfl | rfl | rfl
  · exact ⟨_, _, _, rfl, exec_after (by decide), by decide, by decide, rfl⟩
  · exact ⟨_, _, _, rfl, exec_after (by decide), by decide, by decide, rfl⟩
  · exact ⟨_, _, _, rfl, exec_after (by decide), by decide, by decide, rfl⟩

/-- The last cursor of the first case and the cursors of the two others. -/
theorem test_meets_FramingAbsorbsTwoBytes :
    (∀ n ∈ [1, 2, 3], Memory.wf (nearEnd n).st = true ∧ (nearEnd n).padMode = .padded ∧ (nearEnd n).pos < (nearEnd n).rate ∧
      2 < (nearEnd n).rate ∧ (nearEnd n).rate ≤ 198) ∧ (0x0B : Byte) &&& 0x24 = 0 ∧
    (nearEnd 3).pos + 2 < (nearEnd 3).rate ∧ (nearEnd 2).pos + 2 = (nearEnd 2).rate ∧
    ¬ (nearEnd 1).pos + 2 ≤ (nearEnd 1).rate := by decide

/-- The same cursors, with a flag byte that has C. -/
theorem test_meets_ConfidentialOperationsStartAFreshBlock :
    (∀ n ∈ [1, 2, 3], Memory.wf (nearEnd n).st = true ∧ (nearEnd n).padMode = .padded ∧ (nearEnd n).pos < (nearEnd n).rate ∧
      2 < (nearEnd n).rate ∧ (nearEnd n).rate ≤ 198) ∧ (0x1E : Byte).getLsbD 2 = true ∧
    (nearEnd 3).pos + 2 < (nearEnd 3).rate ∧ (nearEnd 2).pos + 2 = (nearEnd 2).rate := by decide

/-- An opening operation split in two, and a continuation split in two. -/
theorem test_meets_StreamingEquivalence :
    (let whole := Instr.recvMAC ⟨0, false, 1 + 2, [1] ++ [2, 3]⟩
     let first := Instr.recvMAC ⟨0, false, 1, [1]⟩
     let second := Instr.recvMAC ⟨0, true, 2, [2, 3]⟩
     whole.opView = some ⟨0x0D, 0, false, 1 + 2, [1] ++ [2, 3]⟩ ∧ first.opView = some ⟨0x0D, 0, false, 1, [1]⟩ ∧
       second.opView = some ⟨0x0D, 0, true, 2, [2, 3]⟩ ∧ two.engines[0]? = some ready) ∧
    (let whole := Instr.metaAD ⟨0, true, 0 + 1, [] ++ [2]⟩
     let first := Instr.metaAD ⟨0, true, 0, []⟩
     let second := Instr.metaAD ⟨0, true, 1, [2]⟩
     whole.opView = some ⟨0x12, 0, true, 0 + 1, [] ++ [2]⟩ ∧ first.opView = some ⟨0x12, 0, true, 0, []⟩ ∧
       second.opView = some ⟨0x12, 0, true, 1, [2]⟩ ∧ ready.activeFlags = 0x12) := by decide

theorem test_meets_ZeroLengthOperations :
    two.engines[0]? = some ready ∧ (Instr.recvMAC ⟨0, false, 0, []⟩).opView = some ⟨0x0D, 0, false, 0, []⟩ ∧
    (Instr.metaAD ⟨0, true, 0, []⟩).opView = some ⟨0x12, 0, true, 0, []⟩ ∧ ready.activeFlags = 0x12 := by decide

/-- An opening call of one byte: the hypotheses of the statements on one operation, the last byte short of
the boundary.  `start` is the cursor the bytes start at. -/
abbrev Opens (i : Instr) (flags : Byte) (e : Engine) (start : Nat) : Prop :=
  (i.opView.map OpView.flags) = some flags ∧ (machine .identity [e]).engines[0]? = some e ∧
    (one 0x61).din.length = (one 0x61).len ∧ ((one 0x61).more = true → flags = e.activeFlags) ∧ start + 1 < e.rate

/-- The engine that a continuation finds, two bytes before the boundary. -/
def opened (flags : Byte) : Engine := { nearEnd 2 with activeFlags := flags }

/-- A continuation of one byte. -/
abbrev Continues (flags : Byte) : Prop := flags = (opened flags).activeFlags ∧ (opened flags).pos + 1 < (opened flags).rate

theorem test_meets_AbsorbWithoutTransport :
    Opens (.ad (one 0x61)) 0x02 (nearEnd 4) ((nearEnd 4).pos + 2) ∧ (nearEnd 4).Ready ∧ Continues 0x13 ∧ (opened 0x13).Ready :=
  ⟨by decide, by decide, by decide, by decide⟩

theorem test_meets_AbsorbWithTransport :
    Opens (.recvCLR (one 0x61)) 0x0B (nearEnd 4) ((nearEnd 4).pos + 2) ∧ (nearEnd 4).Ready ∧ Continues 0x19 ∧
      (opened 0x19).Ready :=
  ⟨by decide, by decide, by decide, by decide⟩

theorem test_meets_OverwriteOperations :
    Opens (.key (one 0x61)) 0x06 (nearEnd 1) ((nearEnd 1).beginOp id 0x06).pos ∧ (nearEnd 1).Ready ∧ Continues 0x15 ∧
      (opened 0x15).Ready :=
  ⟨by decide +kernel, by decide, by decide, by decide⟩

theorem test_meets_SendEncOutputsCiphertext :
    Opens (.sendENC (one 0x61)) 0x0E ready (ready.beginOp id 0x0E).pos ∧ ready.Ready ∧ Continues 0x1E ∧ (opened 0x1E).Ready :=
  ⟨by decide +kernel, by decide, by decide, by decide⟩

theorem test_meets_RecvEncOutputsPlaintext :
    Opens (.recvENC (one 0x61)) 0x0F ready (ready.beginOp id 0x0F).pos ∧ ready.Ready ∧ Continues 0x1F ∧ (opened 0x1F).Ready :=
  ⟨by decide +kernel, by decide, by decide, by decide⟩

theorem test_meets_SendMacCopiesTheState :
    Opens (.sendMAC ⟨0, false, 1⟩) 0x0C ready (ready.beginOp id 0x0C).pos ∧ ready.Ready ∧ Continues 0x1C ∧ (opened 0x1C).Ready :=
  ⟨by decide +kernel, by decide, by decide, by decide⟩

/-- With the clause on the tag at its boundary: one byte that ends the block. -/
theorem test_meets_RecvMacChecksTheWholeTag :
    Opens (.recvMAC (one 0x61)) 0x0D ready (ready.beginOp id 0x0D).pos ∧ ready.Ready ∧ Continues 0x1D ∧ (opened 0x1D).Ready ∧
      (nearEnd 1).pos + 1 ≤ (nearEnd 1).rate :=
  ⟨by decide +kernel, by decide, by decide, by decide, by decide⟩

theorem test_meets_PrfSqueezesTheState :
    Opens (.prf ⟨0, false, 1⟩) 0x07 ready (ready.beginOp id 0x07).pos ∧ ready.Ready ∧ Continues 0x17 ∧ (opened 0x17).Ready :=
  ⟨by decide +kernel, by decide, by decide, by decide⟩

theorem test_meets_RatchetErasesTheState :
    Opens (.ratchet ⟨0, false, 1⟩) 0x04 ready (ready.beginOp id 0x04).pos ∧ ready.Ready ∧ Continues 0x14 ∧ (opened 0x14).Ready :=
  ⟨by decide +kernel, by decide, by decide, by decide⟩

/-- Two parties in the same duplex state. -/
theorem test_meets_CleartextKeepsTranscriptsEqual :
    two.engines[0]? = some ready ∧ two.engines[1]? = some peer ∧ ready.Ready ∧ peer.Ready ∧ ready.SameDuplex peer ∧
    RolesMatch ready.role peer.role :=
  ⟨rfl, rfl, by decide, by decide, by decide, by decide⟩

/-- The roles that match, decided and not, and one pair that does not. -/
theorem test_meets_EncryptionRoundTrip :
    RolesMatch .undecided .undecided ∧ RolesMatch .initiator .responder ∧ RolesMatch .responder .initiator ∧
    ¬ RolesMatch .responder .undecided ∧ ready.SameDuplex peer :=
  ⟨by decide, by decide, by decide, by decide, by decide⟩

/-- A tag that differs from the one sent. -/
theorem test_meets_MacAcceptsExactlyTheTag :
    (answerOf (.sendMAC ⟨0, false, 1⟩) two).dout = [0x3C] ∧ [0x3D].length = 1 ∧ ([0x3D] : List Byte) ≠ [0x3C] := by decide +kernel

/-- On an engine that is in use and on one just reset. -/
theorem test_meets_InitForgetsTheOldLifetime :
    ∀ s ∈ [two, machine .identity [Engine.reset]], s.params = two.params ∧ ∃ x, exec (.init 0 256 0 []) s = .next x := by
  have h : ∀ s ∈ [two, machine .identity [Engine.reset]],
      s.params = two.params ∧ (nextState (exec (.init 0 256 0 []) s)).isSome = true := by decide +kernel
  exact fun s hs => ⟨(h s hs).1, _, exec_after (h s hs).2⟩

theorem test_meets_LabelIsAnOpenOperation :
    (1 : Nat) < two.engines.length ∧ ((128 : BitVec 16) = 128 ∨ (128 : BitVec 16) = 256) := by decide

theorem test_meets_ResetCommandClearsTheEngine : (1 : Nat) < two.engines.length := by decide

theorem test_meets_InitRefusesOtherLevels :
    (1 : Nat) < two.engines.length ∧
      ∀ sec ∈ [0, 127, 129, 255, 257], (BitVec.ofNat 16 sec) ≠ 128 ∧ (BitVec.ofNat 16 sec) ≠ 256 := by decide

/-- Both levels, the longest separator a byte can name the bits of, and labels at both sides of the block's end. -/
theorem test_meets_InitGivesTheInitialState :
    (0 : Nat) < two.engines.length ∧ (List.replicate 31 (0x61 : Byte)).length ≤ 31 ∧
    (2 + (List.replicate 163 (0x61 : Byte)).length < 198 - (128 : BitVec 16).toNat / 4) ∧
    ¬ (2 + (List.replicate 132 (0x61 : Byte)).length < 198 - (256 : BitVec 16).toNat / 4) := by decide +kernel

/-- The first clause, and each reason of the second. -/
theorem test_meets_CloneCopiesEveryField :
    (two.engines[0]? = some ready ∧ 1 < two.engines.length ∧ (0 : Nat) ≠ 1 ∧ ready.initialized = true) ∧
    (machine .identity [ready]).engines.length < 2 ∧ two.engines.length ≤ 2 ∧ (1 : Nat) = 1 ∧
    (State.reset.engines[0]? = some Engine.reset ∧ Engine.reset.initialized = false) := by decide

end Sys2Proof.Tests
end

/-! The frames of a command (10_state.md section 4): which engine it writes and which one it reads. -/

namespace Sys2Proof.Proofs

open Sys2Proof.Machine

/-! ### What a command can leave -/

/-- Everything a command that gives a next state can have done to the machine: it only returned a
response, or it also replaced the record of the one engine it may write (R35). -/
theorem exec_next_cases {i : Instr} {s t : State} (h : exec i s = .next t) :
    (∃ st, t = s.responded st []) ∨ (∃ e st o, t = s.completed i.writes e st o) := by
  rcases exec_shapes i with ⟨v, hv, hexec⟩ | ⟨n, sec, len, label, rfl⟩ | ⟨src, dst, rfl⟩ | ⟨n, rfl⟩
  · rw [hexec] at h
    rw [opView_writes hv]
    obtain ⟨_, _, ⟨st, _, ht⟩ | ⟨_, _, _, ht⟩⟩ := execOp_next h
    · exact .inl ⟨st, ht⟩
    · exact .inr ⟨_, _, _, ht⟩
  · obtain ⟨_, ⟨_, ht⟩ | ⟨_, _, _, ht⟩⟩ := execInit_next (show execInit n sec len label s = .next t from h)
    · exact .inl ⟨_, ht⟩
    · exact .inr ⟨_, _, _, ht⟩
  · change execClone src dst s = .next t at h
    obtain ⟨_, _, _, _, _, _, hc⟩ | hc := execClone_next (s := s) (src := src) (dst := dst)
    · rw [hc] at h; cases h; exact .inr ⟨_, _, _, rfl⟩
    · rw [hc] at h; cases h; exact .inl ⟨_, rfl⟩
  · obtain ⟨_, ht⟩ := execReset_next (show execReset n s = .next t from h)
    exact .inr ⟨_, _, _, ht⟩

/-- Settles O12: of the two things a command can have done, the one writes no engine and the other only
the engine it may write. -/
theorem commandsTouchOnlyTheirEngine : Obligations.CommandsTouchOnlyTheirEngine := by
  intro i s t h
  obtain ⟨st, rfl⟩ | ⟨e, st, o, rfl⟩ := exec_next_cases h
  · exact ⟨rfl, rfl, rfl, fun _ _ => rfl, _, rfl⟩
  · exact ⟨rfl, rfl, List.length_set, fun _ hk => List.getElem?_set_ne hk.symm, _, rfl⟩

/-! ### What an operation reads -/

/-- The record of the engine a command completed on depends on the rest of the machine only in that the
engine exists. -/
theorem completed_same_engine {s s' : State} {n : Nat} (hg : s'.engines[n]? = s.engines[n]?) (e : Engine)
    (st : Status) (o : List Byte) :
    (s'.completed n e st o).engines[n]? = (s.completed n e st o).engines[n]? := by
  simp only [State.completed_engines, List.getElem?_set_self', hg]

/-- The one response appended to a list is the one appended to any other list. -/
theorem responses_append_inj {rs rs' : List Response} {x r : Response} (h : rs ++ [x] = rs ++ [r]) :
    rs' ++ [x] = rs' ++ [r] := by
  rw [List.append_cancel_left h]

/-- Settles O13: the checks, the record left and the response of the OP command that the operation is
are functions of the addressed engine's record and of the parameters. -/
theorem operationsReadOnlyTheirEngine : Obligations.OperationsReadOnlyTheirEngine := by
  intro i v s t s' hv hparams hengine h
  rw [exec_of_opView hv] at h ⊢
  obtain ⟨e, hg, ⟨st, hcheck, rfl⟩ | ⟨hcheck, hwindow, hlen, rfl⟩⟩ := execOp_next h
  · exact ⟨_, execOp_refused (hengine.trans hg) hcheck, hengine, fun _ => responses_append_inj⟩
  · refine ⟨_, execOp_runs (hengine.trans hg) hcheck hwindow hlen, ?_⟩
    rw [hparams]
    exact ⟨completed_same_engine hengine _ _ _, fun _ => responses_append_inj⟩

end Sys2Proof.Proofs

/-! The command word (30_encoding.md sections 2 and 3): what the encoder writes, the decoder reads back. -/

namespace Sys2Proof.Proofs

/-! ### What the decoder reads from a word made of its fields -/

/-- An OP word without a reserved flag bit is read as the operation of its flag byte (R66, R67). -/
theorem decode_of_op_word {c : Command} {more : Bool} {f : Byte} (hw : c.word = makeWord 0 more f)
    (hf : f &&& reservedMask = 0) : decode c = .instr (decodeOp (f &&& 0x0F).toNat (f.getLsbD 4) c) := by
  simp [decode, hw, hf]

/-- A word of another kind with no stray field is read as the command of its kind (R63). -/
theorem decode_of_control_word {c : Command} {kind : BitVec 2} (hw : c.word = makeWord kind false 0)
    (hk : kind ≠ 0#2) : decode c = .instr (decodeControl kind.toNat c) := by
  simp [decode, hw, hk]

/-! ### The operands of an encoded OP command -/

@[simp] theorem streamOp_encode (a : StreamOp) (f : Byte) : (a.encode f).streamOp = a := by
  simp [Command.streamOp, StreamOp.encode]

@[simp] theorem countOp_encode (a : CountOp) (f : Byte) : (a.encode f).countOp = a := by
  simp [Command.countOp, CountOp.encode]

/-- An operation with an input stream is read back from the flag byte that names it. -/
theorem decode_stream_encode {f : Byte} {op : StreamOp → Instr} (hf : f &&& reservedMask = 0)
    (hop : ∀ c, decodeOp (f &&& 0x0F).toNat (f.getLsbD 4) c = op c.streamOp) (a : StreamOp) :
    decode (a.encode f) = .instr (op a) := by
  rw [decode_of_op_word rfl hf, hop, streamOp_encode]

/-- An operation with a count and no input is read back from the flag byte that names it. -/
theorem decode_count_encode {f : Byte} {op : CountOp → Instr} (hf : f &&& reservedMask = 0)
    (hop : ∀ c, decodeOp (f &&& 0x0F).toNat (f.getLsbD 4) c = op c.countOp) (a : CountOp) :
    decode (a.encode f) = .instr (op a) := by
  rw [decode_of_op_word rfl hf, hop, countOp_encode]

/-- Settles O1: a flag byte that the encoder writes has no reserved bit and names the operation it was
written for, with M or without; the other three commands are told apart by their kind. -/
theorem decodeOfEncodeIsIdentity : Obligations.DecodeOfEncodeIsIdentity := by
  intro i
  cases i with
  | ad a | metaAD a | key a | metaKEY a | sendCLR a | metaSendCLR a | recvCLR a | metaRecvCLR a
  | sendENC a | metaSendENC a | recvENC a | metaRecvENC a | recvMAC a | metaRecvMAC a =>
    exact decode_stream_encode (by decide) (fun _ => rfl) a
  | sendMAC a | metaSendMAC a | prf a | metaPRF a | ratchet a | metaRATCHET a =>
    exact decode_count_encode (by decide) (fun _ => rfl) a
  | op00 m a | op01 m a | op03 m a | op05 m a | op08 m a | op09 m a =>
    cases m
    · exact decode_stream_encode (by decide) (fun _ => rfl) a
    · exact decode_stream_encode (by decide) (fun _ => rfl) a
  | init => exact decode_of_control_word (kind := 1) rfl (by decide)
  | clone => exact decode_of_control_word (kind := 2) rfl (by decide)
  | reset => exact decode_of_control_word (kind := 3) rfl (by decide)

/-! ### The host's table words -/

/-- A word that encodes an instruction whose operands are all zero is read as that instruction. -/
theorem decodeTableWord_of_encode {i : Instr} {w : Nat}
    (h : encode i = ⟨BitVec.ofNat 16 w, 0, 0, 0, 0, 0, []⟩) : decodeTableWord 16 w = some i := by
  rw [decodeTableWord, if_pos rfl, ← h, decodeOfEncodeIsIdentity i]

/-- Settles O4: the first eight words are the encodings of what they stand for; the last three have a
reserved word bit, a reserved flag bit and a stray flag byte (R70). -/
theorem decodesWordsOfTheTable : Obligations.DecodesWordsOfTheTable :=
  ⟨decodeTableWord_of_encode rfl, decodeTableWord_of_encode rfl, decodeTableWord_of_encode rfl,
    decodeTableWord_of_encode rfl, decodeTableWord_of_encode rfl, decodeTableWord_of_encode rfl,
    decodeTableWord_of_encode rfl, decodeTableWord_of_encode rfl, by decide, by decide, by decide⟩

end Sys2Proof.Proofs

/-! The sponge adapter (40_sponge_adapter.md): the permutation trigger, the cursor step and INIT. -/

namespace Sys2Proof.Proofs

open Sys2Proof.Machine

/-! ### The permutation trigger -/

/-- `RunF` hands `F` one block, whose bytes are those of the port buffer, installs the answer index for index
and resets the cursor and the operation start (R80). -/
theorem runF_effect (F : Config.Block → Config.Block) (e : Engine) :
    ∃ b : Config.Block, (∀ (a : Nat) (h : a < 200), b[a] = Memory.read e.portBlock a) ∧
      (∀ (a : Nat) (h : a < 200), Memory.read (e.runF F).st a = (F b)[a]) ∧
      e.runF F = { e with st := (e.runF F).st, pos := 0, posBegin := 0 } :=
  ⟨Memory.toBlock e.portBlock, fun _ h => Memory.toBlock_get _ h, fun _ h => Engine.read_runF F e h, rfl⟩

theorem portBlock_padded {e : Engine} (h : e.padMode = .padded) : e.portBlock = e.padInject.st := by
  rw [Engine.portBlock, h]

theorem portBlock_plain {e : Engine} (h : e.padMode = .plain) : e.portBlock = e.st := by
  rw [Engine.portBlock, h]

/-- Settles O21: the injector is three XORs in sequence, and in Padded mode its buffer is what `RunF` hands
to `F`. -/
theorem padInjectorXorsThreeBytes : Obligations.PadInjectorXorsThreeBytes := by
  intro e hwf hpos hrate
  refine ⟨Engine.read_padInject hwf hpos hrate, rfl, fun F hpad => ?_⟩
  rw [← portBlock_padded hpad]
  exact runF_effect F e

/-! ### The cursor step -/

theorem advance_short_of_boundary (F : Config.Block → Config.Block) {e : Engine} (h : e.pos + 1 ≠ e.rate) :
    e.advance F = { e with pos := e.pos + 1 } := if_neg h

theorem advance_at_boundary (F : Config.Block → Config.Block) {e : Engine} (h : e.pos + 1 = e.rate) :
    e.advance F = Engine.runF F { e with pos := e.pos + 1 } := if_pos h

/-- With the cursor at the rate the 0x04 and the 0x80 of the injector fall on one byte (R81). -/
theorem pad_bytes_coincide (a n : Nat) :
    (if a = n then (0x04 : Byte) else 0) ^^^ (if a = n then 0x80 else 0) = if a = n then 0x84 else 0 := by
  split <;> rfl

/-- What the port carries when the cursor stands at the rate, in either mode (R81, R82). -/
theorem read_portBlock_at_rate {e : Engine} (hwf : Memory.wf e.st = true) (hpos : e.pos = e.rate)
    (hrate : e.rate + 1 < 200) (a : Nat) :
    Memory.read e.portBlock a = Memory.read e.st a ^^^
      (if e.padMode = .padded ∧ a = e.rate then BitVec.ofNat 8 e.posBegin else 0) ^^^
      (if e.padMode = .padded ∧ a = e.rate + 1 then 0x84 else 0) := by
  cases hmode : e.padMode with
  | plain => simp [portBlock_plain hmode]
  | padded =>
    rw [portBlock_padded hmode, Engine.read_padInject hwf hpos.le hrate, hpos, BitVec.xor_assoc _ (ite _ _ _),
      pad_bytes_coincide]
    simp only [true_and]

/-- Settles O23: at the boundary the cursor step is `RunF` with the cursor at the rate. -/
theorem cursorStepFiresAtTheBoundary : Obligations.CursorStepFiresAtTheBoundary := by
  intro F e hwf hrate
  refine ⟨fun hshort => advance_short_of_boundary F hshort.ne, fun hend => ?_⟩
  obtain ⟨b, hb, hst, hrest⟩ := runF_effect F { e with pos := e.pos + 1 }
  rw [advance_at_boundary F hend]
  have hport := read_portBlock_at_rate (e := { e with pos := e.pos + 1 }) hwf hend hrate
  exact ⟨b, fun a ha => (hb a ha).trans (hport a), hst, hrest⟩

/-! ### INIT -/

theorem level_ofSec_eq_none {sec : BitVec 16} (h128 : sec ≠ 128) (h256 : sec ≠ 256) : Level.ofSec sec = none := by
  rw [Level.ofSec, if_neg h128, if_neg h256]

theorem exists_level_ofSec {sec : BitVec 16} (h : sec = 128 ∨ sec = 256) : ∃ level, Level.ofSec sec = some level := by
  rcases h with rfl | rfl
  · exact ⟨.bits128, rfl⟩
  · exact ⟨.bits256, rfl⟩

theorem exec_init_refused {s : State} {t : Nat} {sec : BitVec 16} (ht : t < s.engines.length)
    (hsec : Level.ofSec sec = none) (len : Nat) (label : List Byte) :
    exec (.init t sec len label) s = .next (s.responded .configurationError []) := by
  simp only [exec, execInit, if_pos ht, hsec, State.raise_eq]

theorem exec_init_runs {s : State} {t : Nat} {sec : BitVec 16} {level : Level} (ht : t < s.engines.length)
    (hsec : Level.ofSec sec = some level) (label : List Byte) :
    exec (.init t sec label.length label) s =
      .next (s.completed t (initEngine (paramF s.params) s.params.separator level label) .ok []) := by
  simp only [exec, execInit, if_pos ht, hsec, if_true, State.answer_setEngine]

/-- Settles O52: another `sec` names no level, so the operand check refuses it (R88). -/
theorem initRefusesOtherLevels : Obligations.InitRefusesOtherLevels :=
  fun _ _ _ len label ht h128 h256 => exec_init_refused ht (level_ofSec_eq_none h128 h256) len label

/-! ### The label of INIT -/

/-- The metaAD primitive is absorb, and it produces nothing (R131, R162). -/
theorem runPrim_initFlags (F : Config.Block → Config.Block) (len : Nat) (din : List Byte) (e : Engine) :
    e.runPrim F initFlags len din = (e.absorb F din, []) := by
  have hprim : primOf initFlags = .absorb := by decide
  rw [Engine.runPrim, hprim]

/-- The engine on which INIT opens the label operation: the header absorbed and flushed, the switch of R92
made. -/
def labelStart (F : Config.Block → Config.Block) (separator : List Byte) (level : Level) : Engine :=
  initSwitch (initAbsorbHeader F separator (initClear level))

theorem labelStart_rate (F : Config.Block → Config.Block) (separator : List Byte) (level : Level) :
    (labelStart F separator level).rate = Level.initialRate level - 2 := by
  rw [labelStart, Engine.initSwitch_rate, initAbsorbHeader, (Engine.forceF_sameFrame F _).2.1]
  exact congrArg (· - 2) (Engine.walk_rate F absorbRule _ _)

theorem labelStart_pos (F : Config.Block → Config.Block) (separator : List Byte) (level : Level) :
    (labelStart F separator level).pos = 0 := Engine.forceF_pos F _

/-- The label is the input of an opening metaAD (R93). -/
theorem initEngine_eq_opResult (F : Config.Block → Config.Block) (separator : List Byte) (level : Level)
    (label : List Byte) : initEngine F separator level label =
      ((labelStart F separator level).opResult F initFlags false label.length label).1 := by
  rw [Engine.opResult, runPrim_initFlags]
  rfl

/-- INIT leaves an initialised engine with a metaAD open and the cursor inside its window (R92 to R94). -/
theorem initEngine_open (F : Config.Block → Config.Block) (separator : List Byte) (level : Level)
    (label : List Byte) : (initEngine F separator level label).initialized = true ∧
      (initEngine F separator level label).activeFlags = initFlags ∧
      (initEngine F separator level label).windowOk = true := by
  have hwindow : 0 < Level.initialRate level - 2 ∧ Level.initialRate level - 2 ≤ 198 := by cases level <;> decide
  have hpos : (labelStart F separator level).pos < (labelStart F separator level).rate := by
    rw [labelStart_pos, labelStart_rate]
    exact hwindow.1
  obtain ⟨_, hrate, _, hinit, _, hflags⟩ := Engine.opResult_frame F (flags := initFlags) (more := false)
    (len := label.length) (din := label) hpos
  have hlt := Engine.opResult_pos_lt F (flags := initFlags) (more := false) (len := label.length) (din := label) hpos
  rw [initEngine_eq_opResult, Engine.windowOk_iff, hrate]
  exact ⟨hinit, hflags, hlt, by rw [labelStart_rate]; exact hwindow.2⟩

/-- Absorbing more label is INIT with the longer label (R93, R109). -/
theorem initEngine_append (F : Config.Block → Config.Block) (separator : List Byte) (level : Level)
    (a b : List Byte) :
    initEngine F separator level (a ++ b) = (initEngine F separator level a).absorb F b := by
  simp only [initEngine, Engine.absorb, Engine.walk_append]

/-- A metaAD continuation on an engine with a metaAD open absorbs its input and completes (R129, R162). -/
theorem exec_metaAD_continuation {s : State} {t : Nat} {e : Engine} (hengine : s.engines[t]? = some e)
    (hinit : e.initialized = true) (hflags : e.activeFlags = initFlags) (hwindow : e.windowOk = true) (b : List Byte) :
    exec (.metaAD ⟨t, true, b.length, b⟩) s = .next (s.completed t (e.absorb (paramF s.params) b) .ok []) := by
  have hcheck : e.precheck initFlags true = none :=
    Engine.precheck_eq_none_iff.mpr ⟨by decide, hinit, fun _ => hflags.symm⟩
  have hlen : streamMismatch initFlags b.length b = false := by simp [streamMismatch]
  have hresult : e.opResult (paramF s.params) initFlags true b.length b = (e.absorb (paramF s.params) b, []) :=
    runPrim_initFlags _ _ _ e
  have hrun := execOp_runs hengine hcheck hwindow hlen
  rw [hresult] at hrun
  exact hrun

/-- Settles O55: INIT leaves its label operation open, and a continuation absorbs `b` where a longer label
would have gone on. -/
theorem labelIsAnOpenOperation : Obligations.LabelIsAnOpenOperation := by
  intro s t sec a b ht hsec
  obtain ⟨level, hlevel⟩ := exists_level_ofSec hsec
  obtain ⟨hinit, hflags, hwindow⟩ := initEngine_open (paramF s.params) s.params.separator level a
  refine ⟨_, _, exec_init_runs ht hlevel (a ++ b), exec_init_runs ht hlevel a, ?_⟩
  rw [initEngine_append]
  exact exec_metaAD_continuation (List.getElem?_set_self ht) hinit hflags hwindow b

end Sys2Proof.Proofs

/-! The primitives (41_duplex_primitives.md): block-aware zeroing as a byte-serial walk, and what each primitive
does over bytes that fit the block. -/

namespace Sys2Proof.Proofs

open Sys2Proof.Machine

/-! ### Zeroing by blocks -/

/-- With a turn of the loop allowed for every byte, zeroing by blocks is the byte-serial overwrite of zeros
(R107): each turn is a walk over `k` zeros, and the walks join. -/
theorem zeroTurns_eq_walk_zeros (F : Config.Block → Config.Block) {fuel n : Nat} (hfuel : n ≤ fuel) {e : Engine}
    (hpos : e.pos < e.rate) :
    Engine.zeroTurns F fuel n e = (e.walk F overwriteRule (List.replicate n 0x00)).1 := by
  induction fuel generalizing n e with
  | zero => rw [Nat.le_zero.mp hfuel]; rfl
  | succ fuel ih =>
    cases n with
    | zero => rfl
    | succ n =>
      obtain ⟨k, hk⟩ : ∃ k, min (e.rate - e.pos) (n + 1) = k + 1 :=
        Nat.exists_eq_succ_of_ne_zero (by omega)
      have hsplit : List.replicate (n + 1) (0x00 : Byte) =
          List.replicate (k + 1) 0x00 ++ List.replicate (n + 1 - (k + 1)) 0x00 := by
        rw [List.replicate_append_replicate, Nat.add_sub_cancel' (by omega)]
      have hturn := Engine.walk_pos_lt F overwriteRule (List.replicate (k + 1) 0x00) hpos
      rw [← Engine.walk_rate F overwriteRule (List.replicate (k + 1) 0x00) e] at hturn
      simp only [Engine.zeroTurns, hk]
      rw [Engine.zeroTurn_eq_walk F k (by omega), ih (by omega) hturn, hsplit, Engine.walk_append]

/-- Settles O28: `ZeroRun(n)` allows its loop `n` turns. -/
theorem zeroRunIsOverwriteOfZeros : Obligations.ZeroRunIsOverwriteOfZeros :=
  fun F _ _ hpos => zeroTurns_eq_walk_zeros F le_rfl hpos

/-! ### Bytes that fit the block -/

/-- `Engine.walk_block` for a primitive that is given a count: the input byte of every step is zero. -/
theorem walk_zeros_block (F : Config.Block → Config.Block) (r : ByteRule) (n : Nat) {e : Engine}
    (hwf : Memory.wf e.st = true) (hpos : e.pos < e.rate) (hrate : e.rate ≤ 198) (hfit : e.pos + n ≤ e.rate) :
    ∃ m, Memory.wf m = true ∧
      (∀ a, Memory.read m a = if e.pos ≤ a ∧ a < e.pos + n
        then r.newState (Memory.read e.st a) 0x00 else Memory.read e.st a) ∧
      (e.walk F r (List.replicate n 0x00)).1 = Engine.wrap F { e with st := m, pos := e.pos + n } ∧
      (e.walk F r (List.replicate n 0x00)).2 =
        (List.range n).map fun k => r.output (Memory.read e.st (e.pos + k)) 0x00 := by
  have hblock := Engine.walk_block F r (List.replicate n 0x00) hwf hpos hrate (by rwa [List.length_replicate])
  simpa only [List.length_replicate, List.getD_eq_getElem?_getD, List.getElem?_getD_replicate_default_eq] using hblock

/-- Settles O24: the two byte-serial primitives are walks over the data, and `ZeroRun` is the walk that
overwrites with zeros. -/
theorem inputPrimitivesInsideABlock : Obligations.InputPrimitivesInsideABlock := by
  intro F data e hwf hpos hrate hfit
  refine ⟨?absorb, ?overwrite, ?zeroRun⟩
  case absorb =>
    obtain ⟨m, hm, hread, hstate, _⟩ := Engine.walk_block F absorbRule data hwf hpos hrate hfit
    exact ⟨m, hm, hread, hstate⟩
  case overwrite =>
    obtain ⟨m, hm, hread, hstate, _⟩ := Engine.walk_block F overwriteRule data hwf hpos hrate hfit
    exact ⟨m, hm, hread, hstate⟩
  case zeroRun =>
    obtain ⟨m, hm, hread, hstate, _⟩ := walk_zeros_block F overwriteRule data.length hwf hpos hrate hfit
    exact ⟨m, hm, hread, (zeroRunIsOverwriteOfZeros F data.length e hpos).trans hstate⟩

/-- Copying the state leaves the buffer as it was (R104). -/
theorem copyState_block (F : Config.Block → Config.Block) (n : Nat) {e : Engine}
    (hwf : Memory.wf e.st = true) (hpos : e.pos < e.rate) (hrate : e.rate ≤ 198) (hfit : e.pos + n ≤ e.rate) :
    (e.copyState F n).1 = Engine.wrap F { e with pos := e.pos + n } ∧
      (e.copyState F n).2 = (List.range n).map fun k => Memory.read e.st (e.pos + k) := by
  obtain ⟨m, hm, hread, hstate, hout⟩ := walk_zeros_block F copyStateRule n hwf hpos hrate hfit
  have hsame : m = e.st := Memory.eq_of_read hm hwf fun a => (hread a).trans (ite_self _)
  subst hsame
  exact ⟨hstate, hout⟩

/-- Settles O25: each of the four is a walk, two over the data and two over a count, and a walk takes its
outputs from the state it started with. -/
theorem outputPrimitivesInsideABlock : Obligations.OutputPrimitivesInsideABlock :=
  fun F data _ hwf hpos hrate hfit =>
    ⟨Engine.walk_block F absorbAndSetRule data hwf hpos hrate hfit,
      copyState_block F data.length hwf hpos hrate hfit,
      Engine.walk_block F exchangeRule data hwf hpos hrate hfit,
      walk_zeros_block F squeezeRule data.length hwf hpos hrate hfit⟩

end Sys2Proof.Proofs

/-! Framing (42_framing.md): the OP command in full, the role, the two framing bytes with and without the forced
permutation, and streaming. -/

namespace Sys2Proof.Proofs

open Sys2Proof.Machine

/-! ### The OP command in full -/

/-- An operation that runs leaves its own flag byte recorded: an opening call writes it, a continuation
found it there (R129, R130). -/
theorem opResult_activeFlags (F : Config.Block → Config.Block) {e : Engine} {f : Byte} {more : Bool}
    (hpos : e.pos < e.rate) (hmore : more = true → f = e.activeFlags) (len : Nat) (din : List Byte) :
    (e.opResult F f more len din).1.activeFlags = f := by
  obtain ⟨_, _, _, _, _, hflags⟩ := Engine.opResult_frame F (flags := f) (more := more) (len := len) (din := din) hpos
  rw [hflags]
  cases more with
  | false => rfl
  | true => exact (hmore rfl).symm

/-- Settles O17: an operation on a ready engine passes its checks, and the status and the output follow from
its low code and the bytes produced. -/
theorem acceptedOperationsComplete : Obligations.AcceptedOperationsComplete := by
  intro i v s e hv hengine hready hlen hmore
  refine ⟨e.opResult (paramF s.params) v.flags v.more v.len v.din, rfl, ?_,
    opResult_activeFlags _ hready.pos_lt hmore _ _⟩
  obtain ⟨hstatus, hout⟩ := final_eq v.flags (e.opResult (paramF s.params) v.flags v.more v.len v.din).2
  rw [← hstatus, ← hout]
  exact exec_ready hv hengine hready hlen hmore

/-- The record a command leaves is the one found at its engine number afterwards. -/
theorem completed_engine {s : State} {k : Nat} {e : Engine} (hengine : s.engines[k]? = some e) (e' : Engine)
    (status : Status) (out : List Byte) : (s.completed k e' status out).engines[k]? = some e' :=
  List.getElem?_set_self (List.getElem?_eq_some_iff.mp hengine).1

/-! ### The role -/

/-- An operation that runs decides the role exactly if it is an opening one with T on an undecided engine
(R124). -/
theorem opResult_role (F : Config.Block → Config.Block) (f : Byte) (more : Bool) (len : Nat) (din : List Byte)
    {e : Engine} (hpos : e.pos < e.rate) : (e.opResult F f more len din).1.role =
      if more = false ∧ f.getLsbD 3 = true ∧ e.role = .undecided then (if f.getLsbD 0 then .responder else .initiator)
      else e.role := by
  obtain ⟨_, _, _, _, hrole, _⟩ := Engine.opResult_frame F (flags := f) (more := more) (len := len) (din := din) hpos
  rw [hrole]
  cases more with
  | true => simp
  | false => simp [decideRole_eq]

/-- Settles O35: a refused command leaves the record and answers neither OK nor AuthenticationError; one that
ran negotiated the role exactly if it was opening. -/
theorem roleIsDecidedOnceByATransportOperation : Obligations.RoleIsDecidedOnceByATransportOperation := by
  intro i v s t e e' r hv h hengine hengine' hresp
  rw [exec_of_opView hv] at h
  obtain ⟨e₀, hg, ⟨st, hcheck, rfl⟩ | ⟨_, hwindow, _, rfl⟩⟩ := execOp_next h <;>
    obtain rfl : e₀ = e := Option.some.inj (hg.symm.trans hengine)
  · obtain rfl : e₀ = e' := Option.some.inj (hengine.symm.trans hengine')
    obtain rfl : ⟨st, []⟩ = r := by simpa using hresp
    obtain rfl | rfl := Engine.precheck_status hcheck <;> simp
  · obtain rfl := Option.some.inj ((completed_engine hengine _ _ _).symm.trans hengine')
    have hstatus : r.status = .ok ∨ r.status = .authenticationError := by
      rw [← List.singleton_inj.mp (List.append_cancel_left hresp)]
      exact finalStatus_cases _
    rw [opResult_role _ _ _ _ _ ((Engine.windowOk_iff e₀).mp hwindow).1]
    simp only [hstatus, and_true]

/-! ### Framing -/

/-- Framing writes the buffer, the cursor, the operation start and the role. -/
theorem beginOp_eq (F : Config.Block → Config.Block) (flags : Byte) (e : Engine) :
    e.beginOp F flags = { e with
      st := (e.beginOp F flags).st, pos := (e.beginOp F flags).pos, posBegin := (e.beginOp F flags).posBegin
      role := decideRole flags e.role } := by
  obtain ⟨hlevel, hrate, hrole, hflags, hpad, hinit⟩ := Engine.beginOp_frame F flags e
  rw [← hlevel, ← hrate, ← hrole, ← hflags, ← hpad, ← hinit]

/-- Absorbing two bytes from index `p` on is XORing one at `p` and one at `p + 1`. -/
theorem absorb_two_bytes (s x y : Byte) (p a : Nat) :
    (if p ≤ a ∧ a < p + 2 then s ^^^ [x, y].getD (a - p) 0 else s) =
      s ^^^ (if a = p then x else 0) ^^^ (if a = p + 1 then y else 0) := by
  by_cases h0 : a = p
  · subst h0; simp
  · by_cases h1 : a = p + 1
    · subst h1; simp
    · rw [if_neg (by omega), if_neg h0, if_neg h1]; simp

/-- The framing bytes where the block has room for both, up to and including its last byte (R126). -/
theorem frameBytes_block (F : Config.Block → Config.Block) (ff : Byte) {e : Engine} (hwf : Memory.wf e.st = true)
    (hrate : e.rate ≤ 198) (hfit : e.pos + 2 ≤ e.rate) :
    ∃ m, Memory.wf m = true ∧
      (∀ a, Memory.read m a = Memory.read e.st a ^^^ (if a = e.pos then BitVec.ofNat 8 e.posBegin else 0) ^^^
        (if a = e.pos + 1 then ff else 0)) ∧
      e.frameBytes F ff = Engine.wrap F { e with st := m, pos := e.pos + 2, posBegin := e.pos + 1 } := by
  obtain ⟨m, hm, hread, hstate, _⟩ := Engine.walk_block F absorbRule [BitVec.ofNat 8 e.posBegin, ff]
    (e := { e with posBegin := e.pos + 1 }) hwf (Nat.lt_of_succ_lt hfit) hrate hfit
  exact ⟨m, hm, fun a => (hread a).trans (absorb_two_bytes _ _ _ _ _), hstate⟩

/-- The permutation of a padded engine: the block handed to `F` and its answer (R80, R81). -/
theorem runF_padded (F : Config.Block → Config.Block) {e : Engine} (hwf : Memory.wf e.st = true)
    (hpad : e.padMode = .padded) (hpos : e.pos ≤ e.rate) (hrate : e.rate ≤ 198) :
    ∃ b : Config.Block,
      (∀ (a : Nat) (h : a < 200), b[a] = Memory.read e.st a ^^^ (if a = e.pos then BitVec.ofNat 8 e.posBegin else 0) ^^^
        (if a = e.pos + 1 then 0x04 else 0) ^^^ (if a = e.rate + 1 then 0x80 else 0)) ∧
      (∀ (a : Nat) (h : a < 200), Memory.read (e.runF F).st a = (F b)[a]) := by
  obtain ⟨b, hb, hst, _⟩ := runF_effect F e
  have hroom : e.rate + 1 < stateBytes := Nat.succ_lt_succ (Nat.lt_succ_of_le hrate)
  refine ⟨b, fun a ha => ?_, hst⟩
  rw [hb a ha, portBlock_padded hpad, Engine.read_padInject hwf hpos hroom]

/-- The permutation of a padded engine whose cursor stands at the rate: there the pad bytes 0x04 and 0x80 fall on
one index (R81). -/
theorem runF_at_rate (F : Config.Block → Config.Block) {e : Engine} (hwf : Memory.wf e.st = true)
    (hpad : e.padMode = .padded) (hpos : e.pos = e.rate) (hrate : e.rate ≤ 198) :
    ∃ b : Config.Block,
      (∀ (a : Nat) (h : a < 200), b[a] = Memory.read e.st a ^^^ (if a = e.rate then BitVec.ofNat 8 e.posBegin else 0) ^^^
        (if a = e.rate + 1 then 0x84 else 0)) ∧
      (∀ (a : Nat) (h : a < 200), Memory.read (e.runF F).st a = (F b)[a]) := by
  obtain ⟨b, hb, hst⟩ := runF_padded F hwf hpad hpos.le hrate
  refine ⟨b, fun a ha => ?_, hst⟩
  rw [hb a ha, hpos, BitVec.xor_assoc _ (ite _ _ _), pad_bytes_coincide]

/-- Both framing bytes inside the block. -/
theorem frameBytes_inside (F : Config.Block → Config.Block) (ff : Byte) {e : Engine} (hwf : Memory.wf e.st = true)
    (hrate : e.rate ≤ 198) (hpos : e.pos + 2 < e.rate) :
    ∃ m, Memory.wf m = true ∧
      (∀ a, Memory.read m a = Memory.read e.st a ^^^ (if a = e.pos then BitVec.ofNat 8 e.posBegin else 0) ^^^
        (if a = e.pos + 1 then ff else 0)) ∧
      e.frameBytes F ff = { e with st := m, pos := e.pos + 2, posBegin := e.pos + 1 } := by
  obtain ⟨m, hm, hread, hstate⟩ := frameBytes_block F ff hwf hrate hpos.le
  exact ⟨m, hm, hread, hstate.trans (if_neg hpos.ne)⟩

/-- The second framing byte on the last byte of the window: its permutation carries the new operation
start. -/
theorem frameBytes_to_boundary (F : Config.Block → Config.Block) (ff : Byte) {e : Engine}
    (hwf : Memory.wf e.st = true) (hpad : e.padMode = .padded) (hrate : e.rate ≤ 198) (hpos : e.pos + 2 = e.rate) :
    (e.frameBytes F ff).pos = 0 ∧ (e.frameBytes F ff).posBegin = 0 ∧ ∃ b : Config.Block,
      (∀ (a : Nat) (h : a < 200), b[a] = Memory.read e.st a ^^^ (if a = e.pos then BitVec.ofNat 8 e.posBegin else 0) ^^^
        (if a = e.pos + 1 then ff else 0) ^^^ (if a = e.rate then BitVec.ofNat 8 (e.rate - 1) else 0) ^^^
        (if a = e.rate + 1 then 0x84 else 0)) ∧
      (∀ (a : Nat) (h : a < 200), Memory.read (e.frameBytes F ff).st a = (F b)[a]) := by
  obtain ⟨m, hm, hread, hstate⟩ := frameBytes_block F ff hwf hrate hpos.le
  obtain ⟨b, hb, hst⟩ := runF_at_rate F (e := { e with st := m, pos := e.pos + 2, posBegin := e.pos + 1 })
    hm hpad hpos hrate
  rw [hstate.trans (if_pos hpos)]
  refine ⟨rfl, rfl, b, fun a ha => ?_, hst⟩
  rw [hb a ha, hread a, show e.rate - 1 = e.pos + 1 by omega]

/-- The record with the first framing byte absorbed, before the boundary test (R126). -/
def firstFramed (e : Engine) : Engine :=
  { e with st := Memory.xorAt e.st e.pos (BitVec.ofNat 8 e.posBegin), pos := e.pos + 1, posBegin := e.pos + 1 }

/-- Where the first framing byte ends its block, the second is absorbed at the start of the next. -/
theorem frameBytes_of_first_at_end (F : Config.Block → Config.Block) (ff : Byte) {e : Engine} (hone : 1 < e.rate)
    (hpos : e.pos + 1 = e.rate) :
    e.frameBytes F ff =
      { (firstFramed e).runF F with st := Memory.xorAt ((firstFramed e).runF F).st 0 ff, pos := 1 } := by
  have hfirst : Engine.step1 F absorbRule (BitVec.ofNat 8 e.posBegin) { e with posBegin := e.pos + 1 } =
      (firstFramed e).runF F := if_pos hpos
  rw [Engine.frameBytes_eq, Engine.walk_cons, hfirst]
  exact Engine.step1_inside F absorbRule (e := (firstFramed e).runF F) hone.ne ff

/-- The first framing byte on the last byte of the window: its permutation carries the rate as operation
start, and the second byte opens the next block. -/
theorem frameBytes_across (F : Config.Block → Config.Block) (ff : Byte) {e : Engine} (hwf : Memory.wf e.st = true)
    (hpad : e.padMode = .padded) (hrate : e.rate ≤ 198) (hone : 1 < e.rate) (hpos : e.pos + 1 = e.rate) :
    (e.frameBytes F ff).pos = 1 ∧ (e.frameBytes F ff).posBegin = 0 ∧ ∃ b : Config.Block,
      (∀ (a : Nat) (h : a < 200), b[a] = Memory.read e.st a ^^^ (if a = e.pos then BitVec.ofNat 8 e.posBegin else 0) ^^^
        (if a = e.rate then BitVec.ofNat 8 e.rate else 0) ^^^ (if a = e.rate + 1 then 0x84 else 0)) ∧
      (∀ (a : Nat) (h : a < 200),
        Memory.read (e.frameBytes F ff).st a = (F b)[a] ^^^ (if a = 0 then ff else 0)) := by
  obtain ⟨b, hb, hst⟩ := runF_at_rate F (e := firstFramed e) (Memory.wf_xorAt hwf _ _) hpad hpos hrate
  rw [frameBytes_of_first_at_end F ff hone hpos]
  refine ⟨rfl, rfl, b, fun a ha => ?_, fun a ha => ?_⟩
  · rw [hb a ha, firstFramed, Memory.read_xorAt hwf (show e.pos < 200 by omega), hpos]
  · rw [← hst a ha]
    exact Memory.read_xorAt (a := 0) (Engine.runF_wf F (firstFramed e)) (by decide) a ff

/-- Settles O36: framing without C is the two framing bytes alone, and the cursor can stand in three places. -/
theorem framingAbsorbsTwoBytes : Obligations.FramingAbsorbsTwoBytes := by
  rintro F flags e x ff hwf hpad hpos hrate hrate' hflags rfl rfl
  refine ⟨beginOp_eq F flags e, ?_⟩
  rw [Engine.beginOp_of_not_confidential F flags e hflags]
  generalize framedFlags flags (decideRole flags e.role) = ff
  split_ifs with hinside hboundary
  · obtain ⟨m, _, hread, hstate⟩ := frameBytes_inside F ff (e := e.negotiate flags) hwf hrate' hinside
    rw [hstate]
    exact ⟨rfl, rfl, hread⟩
  · exact frameBytes_to_boundary F ff (e := e.negotiate flags) hwf hpad hrate' hboundary
  · have hlast : e.pos + 1 = e.rate := by omega
    exact frameBytes_across F ff (e := e.negotiate flags) hwf hpad hrate' (Nat.lt_of_succ_lt hrate) hlast

/-- The forced permutation after two framing bytes that fit inside the block sees them and the pad bytes
(R127, R81). -/
theorem forceF_frameBytes_inside (F : Config.Block → Config.Block) (ff : Byte) {e : Engine}
    (hwf : Memory.wf e.st = true) (hpad : e.padMode = .padded) (hrate : e.rate ≤ 198) (hpos : e.pos + 2 < e.rate) :
    ∃ b : Config.Block,
      (∀ (a : Nat) (h : a < 200), b[a] = Memory.read e.st a ^^^ (if a = e.pos then BitVec.ofNat 8 e.posBegin else 0) ^^^
        (if a = e.pos + 1 then ff else 0) ^^^ (if a = e.pos + 2 then BitVec.ofNat 8 (e.pos + 1) else 0) ^^^
        (if a = e.pos + 3 then 0x04 else 0) ^^^ (if a = e.rate + 1 then 0x80 else 0)) ∧
      (∀ (a : Nat) (h : a < 200), Memory.read ((e.frameBytes F ff).forceF F).st a = (F b)[a]) := by
  obtain ⟨m, hm, hread, hstate⟩ := frameBytes_inside F ff hwf hrate hpos
  obtain ⟨b, hb, hst⟩ := runF_padded F (e := { e with st := m, pos := e.pos + 2, posBegin := e.pos + 1 })
    hm hpad hpos.le hrate
  rw [hstate, Engine.forceF, if_neg (Nat.succ_ne_zero _)]
  refine ⟨b, fun a ha => ?_, hst⟩
  rw [hb a ha, hread a]

/-- Framing with C ends at cursor 0, and so with the operation start at 0 (R127). -/
theorem beginOp_fresh_block (F : Config.Block → Config.Block) {flags : Byte} (hflags : flags.getLsbD 2 = true)
    (e : Engine) : (e.beginOp F flags).pos = 0 ∧ (e.beginOp F flags).posBegin = 0 := by
  have hpos : (e.beginOp F flags).pos = 0 := by
    rw [Engine.beginOp_of_confidential F flags e hflags, Engine.forceF_pos]
  exact ⟨hpos, Nat.le_zero.mp (hpos ▸ (Engine.beginOp_begin F flags e).1)⟩

/-- Settles O37: after the framing bytes the permutation is forced, unless their second one has just fired it
and the cursor is already at 0. -/
theorem confidentialOperationsStartAFreshBlock : Obligations.ConfidentialOperationsStartAFreshBlock := by
  rintro F flags e x ff hwf hpad hpos hrate hrate' hflags rfl rfl
  obtain ⟨hpos0, hbegin0⟩ := beginOp_fresh_block F hflags e
  have heq := beginOp_eq F flags e
  rw [hpos0, hbegin0] at heq
  refine ⟨heq, ?_⟩
  rw [Engine.beginOp_of_confidential F flags e hflags]
  generalize framedFlags flags (decideRole flags e.role) = ff
  exact ⟨forceF_frameBytes_inside F ff (e := e.negotiate flags) hwf hpad hrate',
    fun hboundary => if_pos (frameBytes_to_boundary F ff (e := e.negotiate flags) hwf hpad hrate' hboundary).1⟩

/-! ### Streaming -/

/-- The concatenation law of the walk, for a primitive that is given a count (R109). -/
theorem walk_zeros_add (F : Config.Block → Config.Block) (r : ByteRule) (m n : Nat) (e : Engine) :
    e.walk F r (List.replicate (m + n) 0x00) =
      (((e.walk F r (List.replicate m 0x00)).1.walk F r (List.replicate n 0x00)).1,
        (e.walk F r (List.replicate m 0x00)).2 ++
          ((e.walk F r (List.replicate m 0x00)).1.walk F r (List.replicate n 0x00)).2) := by
  rw [List.replicate_add, Engine.walk_append]

/-- Zeroing obeys the concatenation law because it is the overwrite of zeros (R107, R109). -/
theorem zeroRun_add (F : Config.Block → Config.Block) (m n : Nat) {e : Engine} (hpos : e.pos < e.rate) :
    e.zeroRun F (m + n) = (e.zeroRun F m).zeroRun F n := by
  have hpos' : (e.overwrite F (List.replicate m 0x00)).pos < (e.overwrite F (List.replicate m 0x00)).rate := by
    rw [Engine.overwrite, Engine.walk_rate]
    exact Engine.walk_pos_lt F overwriteRule _ hpos
  rw [zeroRunIsOverwriteOfZeros F (m + n) e hpos, zeroRunIsOverwriteOfZeros F m e hpos,
    zeroRunIsOverwriteOfZeros F n _ hpos', Engine.overwrite, walk_zeros_add]
  rfl

/-- Whatever the flags, the primitive over two parts is the primitive over the first and then over the second,
with the outputs joined (R109). -/
theorem runPrim_append (F : Config.Block → Config.Block) (f : Byte) (m n : Nat) (a b : List Byte) {e : Engine}
    (hpos : e.pos < e.rate) :
    e.runPrim F f (m + n) (a ++ b) =
      (((e.runPrim F f m a).1.runPrim F f n b).1,
        (e.runPrim F f m a).2 ++ ((e.runPrim F f m a).1.runPrim F f n b).2) := by
  simp only [Engine.runPrim]
  cases primOf f with
  | absorb => simp only [Engine.absorb, Engine.walk_append, List.append_nil]
  | overwrite => simp only [Engine.overwrite, Engine.walk_append, List.append_nil]
  | absorbAndSet => exact Engine.walk_append F absorbAndSetRule a b e
  | exchange => exact Engine.walk_append F exchangeRule a b e
  | copyState => exact walk_zeros_add F copyStateRule m n e
  | squeeze => exact walk_zeros_add F squeezeRule m n e
  | zeroRun => simp only [zeroRun_add F m n hpos, List.append_nil]

/-- An operation over two parts is the operation over the first and then the continuation over the second, which
skips the framing (R129, R136). -/
theorem opResult_append (F : Config.Block → Config.Block) (f : Byte) (more : Bool) (m n : Nat) (a b : List Byte)
    {e : Engine} (hpos : e.pos < e.rate) :
    e.opResult F f more (m + n) (a ++ b) =
      (((e.opResult F f more m a).1.opResult F f true n b).1,
        (e.opResult F f more m a).2 ++ ((e.opResult F f more m a).1.opResult F f true n b).2) := by
  obtain ⟨_, hrate, _⟩ := Engine.enterOp_frame F (flags := f) (more := more) e
  exact runPrim_append F f m n a b (by rw [hrate]; exact Engine.enterOp_pos_lt F hpos)

theorem finalOutput_append (f : Byte) (o o' : List Byte) :
    finalOutput f (o ++ o') = finalOutput f o ++ finalOutput f o' := by
  simp only [finalOutput]
  split <;> rfl

/-- A tag checked in two parts is good exactly if both parts are (R159; log entry 21). -/
theorem finalStatus_append_ok (f : Byte) (o o' : List Byte) :
    finalStatus f (o ++ o') = .ok ↔ finalStatus f o = .ok ∧ finalStatus f o' = .ok := by
  simp only [finalStatus_ok_iff, orAll_eq_zero, List.forall_mem_append, or_and_left]

/-- An operation leaves its engine accepting a continuation of it: the checks pass and the cursor is inside the
window. -/
theorem opResult_accepts_continuation (F : Config.Block → Config.Block) {e : Engine} {f : Byte} {more : Bool}
    (hcheck : e.precheck f more = none) (hwindow : e.windowOk = true) (len : Nat) (din : List Byte) :
    (e.opResult F f more len din).1.precheck f true = none ∧ (e.opResult F f more len din).1.windowOk = true := by
  obtain ⟨hreserved, hinit, hmore⟩ := Engine.precheck_eq_none_iff.mp hcheck
  obtain ⟨hpos, hrate⟩ := (Engine.windowOk_iff e).mp hwindow
  obtain ⟨_, hrate', _, hinit', _, _⟩ :=
    Engine.opResult_frame F (flags := f) (more := more) (len := len) (din := din) hpos
  rw [Engine.precheck_eq_none_iff, Engine.windowOk_iff, hrate']
  exact ⟨⟨hreserved, hinit'.trans hinit, fun _ => (opResult_activeFlags F hpos hmore len din).symm⟩,
    Engine.opResult_pos_lt F hpos, hrate⟩

/-- A continuation issued after a command that left a record accepting it: it runs on that record. -/
theorem exec_continuation {i : Instr} {v : OpView} {s : State} {e e' : Engine} (hv : i.opView = some v)
    (hengine : s.engines[v.engine]? = some e) (hcheck : e'.precheck v.flags v.more = none)
    (hwindow : e'.windowOk = true) (hlen : v.lengthsAgree) (status : Status) (out : List Byte) :
    exec i (s.completed v.engine e' status out) = .next ((s.completed v.engine e' status out).completed v.engine
      (e'.opResult (paramF s.params) v.flags v.more v.len v.din).1
      (finalStatus v.flags (e'.opResult (paramF s.params) v.flags v.more v.len v.din).2)
      (finalOutput v.flags (e'.opResult (paramF s.params) v.flags v.more v.len v.din).2)) := by
  have hengine' := completed_engine hengine e' status out
  rw [exec_of_opView hv, execOp_runs hengine' hcheck hwindow (streamMismatch_of_lengthsAgree hlen),
    State.completed_params]

/-- Settles O38: the first call leaves its operation open, and the continuation runs the primitive where the one
call would have gone on. -/
theorem streamingEquivalence : Obligations.StreamingEquivalence := by
  intro whole first second f k m n more a b s e hwhole hfirst hsecond hlen hengine hready hmore
  have hcheck : e.precheck f more = none :=
    Engine.precheck_eq_none_iff.mpr ⟨opView_not_reserved hwhole, hready.1, hmore⟩
  obtain ⟨hcheck', hwindow'⟩ := opResult_accepts_continuation (paramF s.params) hcheck hready.windowOk m a
  have hrunWhole := exec_ready hwhole hengine hready
    (fun ht => by rw [List.length_append, (hlen ht).1, (hlen ht).2]) hmore
  have hrunFirst := exec_ready hfirst hengine hready (fun ht => (hlen ht).1) hmore
  have hrunSecond := exec_continuation hsecond hengine hcheck' hwindow' fun ht => (hlen ht).2
  simp only [opResult_append _ f more m n a b hready.pos_lt] at hrunWhole
  exact ⟨_, _, ⟨_, _⟩, ⟨_, _⟩, ⟨_, _⟩, hrunWhole, hrunFirst, hrunSecond _ _, finalOutput_append f _ _,
    finalStatus_append_ok f _ _⟩

end Sys2Proof.Proofs

/-! The operations (43_operations.md): what each does on a ready engine, by the primitive it runs, and what two
parties in the same duplex state get from a send and its receive. -/

namespace Sys2Proof.Proofs

open Sys2Proof.Machine

/-! ### Where the primitive of an accepted operation starts -/

/-- The operation `i` is the OP command `v`, addressed to the ready engine `e`, with nothing to refuse it, and its
primitive starts from `o`: an opening call runs the framing first, a continuation goes on where `e` stands. -/
structure Accepted (i : Instr) (v : OpView) (s : State) (e o : Engine) : Prop where
  isOp : i.opView = some v
  engine : s.engines[v.engine]? = some e
  ready : e.Ready
  lengths : v.lengthsAgree
  continues : v.more = true → v.flags = e.activeFlags
  start : o = if v.more then e else e.beginOp (paramF s.params) v.flags

/-- A primitive that takes no input has no length to agree with (R50). -/
theorem count_lengthsAgree (a : CountOp) {flags : Byte} (hcount : takesInput (primOf flags) = false) :
    (a.view flags).lengthsAgree :=
  fun hinput => absurd hinput (Bool.eq_false_iff.mp hcount)

/-- The recorded flag byte has no part in a primitive. -/
theorem runPrim_activeFlags (F : Config.Block → Config.Block) (f g : Byte) (len : Nat) (din : List Byte) {o : Engine}
    (hpos : o.pos < o.rate) :
    Engine.runPrim F f len din { o with activeFlags := g } =
      ({ (o.runPrim F f len din).1 with activeFlags := g }, (o.runPrim F f len din).2) := by
  simp only [Engine.runPrim]
  cases primOf f with
  | absorb => simp only [Engine.absorb, Engine.walk_activeFlags]
  | overwrite => simp only [Engine.overwrite, Engine.walk_activeFlags]
  | absorbAndSet => exact Engine.walk_activeFlags F absorbAndSetRule din o g
  | copyState => exact Engine.walk_activeFlags F copyStateRule _ o g
  | exchange => exact Engine.walk_activeFlags F exchangeRule din o g
  | squeeze => exact Engine.walk_activeFlags F squeezeRule _ o g
  | zeroRun =>
    have hzero := zeroRunIsOverwriteOfZeros F len { o with activeFlags := g } hpos
    simp only [hzero, zeroRunIsOverwriteOfZeros F len o hpos, Engine.overwrite, Engine.walk_activeFlags]

namespace Accepted

variable {i : Instr} {v : OpView} {s : State} {e o : Engine}

/-- The window of the starting engine is the one of the engine addressed, with the cursor in it. -/
theorem start_window (h : Accepted i v s e o) :
    Memory.wf o.st = true ∧ o.rate = e.rate ∧ o.pos < o.rate ∧ o.rate ≤ 198 := by
  obtain ⟨hpos, hrate⟩ := (Engine.windowOk_iff e).mp h.ready.windowOk
  obtain ⟨_, hwf, _⟩ := h.ready
  rw [h.start]
  split
  · exact ⟨hwf, rfl, hpos, hrate⟩
  · obtain ⟨_, hsame, _⟩ := Engine.beginOp_frame (paramF s.params) v.flags e
    rw [hsame]
    exact ⟨Engine.beginOp_wf _ _ hwf, rfl, Engine.beginOp_pos_lt _ _ hpos, hrate⟩

theorem opResult_eq (h : Accepted i v s e o) :
    e.opResult (paramF s.params) v.flags v.more v.len v.din =
      ({ (o.runPrim (paramF s.params) v.flags v.len v.din).1 with activeFlags := v.flags },
        (o.runPrim (paramF s.params) v.flags v.len v.din).2) := by
  obtain ⟨_, _, hpos, _⟩ := h.start_window
  have henter : e.enterOp (paramF s.params) v.flags v.more = { o with activeFlags := v.flags } := by
    rw [h.start]
    cases hmore : v.more with
    | false => rfl
    | true => rw [h.continues hmore]; rfl
  rw [Engine.opResult, henter, runPrim_activeFlags _ _ _ _ _ hpos]

/-- The operation completes with what the primitive leaves and produces (R135). -/
theorem exec_eq (h : Accepted i v s e o) {x : Engine} {out dout : List Byte} {status : Status}
    (hrun : o.runPrim (paramF s.params) v.flags v.len v.din = (x, out))
    (hfinal : finalStatus v.flags out = status ∧ finalOutput v.flags out = dout) :
    exec i s = .next (s.completed v.engine { x with activeFlags := v.flags } status dout) := by
  obtain ⟨rfl, rfl⟩ := hfinal
  rw [exec_ready h.isOp h.engine h.ready h.lengths h.continues, h.opResult_eq, hrun]

/-- The primitive of an operation without T leaves the role (R124). -/
theorem role_of_not_transport (h : Accepted i v s e o) (hT : v.flags.getLsbD 3 = false) {x : Engine} {out : List Byte}
    (hrun : o.runPrim (paramF s.params) v.flags v.len v.din = (x, out)) : x.role = e.role := by
  have hrole := opResult_role (paramF s.params) v.flags v.more v.len v.din h.ready.pos_lt
  simpa only [h.opResult_eq, hrun, hT, Bool.false_eq_true, false_and, and_false, if_false] using hrole

/-- An opening operation with T decides the role of an undecided engine (R124). -/
theorem role_of_transport (h : Accepted i v s e o) (hT : v.flags.getLsbD 3 = true) {taken : Role}
    (htaken : (if v.flags.getLsbD 0 then Role.responder else .initiator) = taken) {x : Engine} {out : List Byte}
    (hrun : o.runPrim (paramF s.params) v.flags v.len v.din = (x, out)) :
    x.role = if v.more = false ∧ e.role = .undecided then taken else e.role := by
  have hrole := opResult_role (paramF s.params) v.flags v.more v.len v.din h.ready.pos_lt
  simpa only [h.opResult_eq, hrun, hT, true_and, htaken] using hrole

/-- An opening operation with C starts at cursor 0 (R127). -/
theorem fresh_block (h : Accepted i v s e o) (hC : v.flags.getLsbD 2 = true) (hmore : v.more = false) :
    o.pos = 0 ∧ o.posBegin = 0 := by
  rw [h.start, hmore]
  exact beginOp_fresh_block _ hC e

/-- A walk that ends short of the boundary (R100). -/
theorem walk_inside (h : Accepted i v s e o) (r : ByteRule) {ds : List Byte} {n : Nat} (hlen : ds.length = n)
    (hfit : o.pos + n < e.rate) :
    (o.walk (paramF s.params) r ds).1.pos = o.pos + n ∧
      (o.walk (paramF s.params) r ds).1.posBegin = o.posBegin ∧
      ∀ p, Memory.read (o.walk (paramF s.params) r ds).1.st p = if o.pos ≤ p ∧ p < o.pos + n
        then r.newState (Memory.read o.st p) (ds.getD (p - o.pos) 0) else Memory.read o.st p := by
  subst hlen
  obtain ⟨hwf, hsame, _, hrate⟩ := h.start_window
  obtain ⟨m, hstate, _, hread, _⟩ := Engine.walk_inside (paramF s.params) r ds hwf (hsame ▸ hfit)
    (hrate.trans (by decide))
  rw [hstate]
  exact ⟨rfl, rfl, hread⟩

/-- An output byte from the block the walk starts in (R100). -/
theorem walk_output (h : Accepted i v s e o) (r : ByteRule) {ds : List Byte} {n k : Nat} (hlen : ds.length = n)
    (hk : k < n) (hblock : o.pos + k < e.rate) :
    (o.walk (paramF s.params) r ds).2.getD k 0 = r.output (Memory.read o.st (o.pos + k)) (ds.getD k 0) := by
  obtain ⟨hwf, hsame, hpos, hrate⟩ := h.start_window
  exact Engine.walk_output (paramF s.params) r ds hwf hpos hrate k (hlen ▸ hk) (hsame ▸ hblock)

end Accepted

/-! ### The status and the output by the primitive -/

theorem final_of_nothing_produced (f : Byte) : finalStatus f [] = .ok ∧ finalOutput f [] = [] := by
  simp [final_eq]

theorem final_of_not_withheld {f : Byte} (hf : withheld f = false) (out : List Byte) :
    finalStatus f out = .ok ∧ finalOutput f out = out := by
  simp [finalStatus, finalOutput, hf]

/-- The whole tag decides the status, and nothing is output (R159). -/
theorem final_of_withheld {f : Byte} (hf : withheld f = true) (out : List Byte) :
    (finalStatus f out = .ok ↔ ∀ b ∈ out, b = 0) ∧ (finalStatus f out = .authenticationError ↔ ∃ b ∈ out, b ≠ 0) ∧
      finalOutput f out = [] := by
  have hok : finalStatus f out = .ok ↔ ∀ b ∈ out, b = 0 := by
    simp only [finalStatus_ok_iff, hf, orAll_eq_zero, Bool.true_eq_false, false_or]
  have herror : finalStatus f out = .authenticationError ↔ ¬ finalStatus f out = .ok := by
    obtain h | h := finalStatus_cases (flags := f) out <;> simp [h]
  refine ⟨hok, ?_, by rw [finalOutput, if_pos hf]⟩
  rw [herror, hok]
  push Not
  rfl

/-! ### The operations with C -/

/-- Settles O42: the primitive is `Overwrite`, a walk that starts a fresh block in an opening call. -/
theorem overwriteOperations : Obligations.OverwriteOperations := by
  intro a i flags s e o hmem hengine hready hlen hmore ho
  obtain ⟨hop, hprim, hT, hC⟩ : i.opView = some (a.view flags) ∧ primOf flags = .overwrite ∧
      flags.getLsbD 3 = false ∧ flags.getLsbD 2 = true := by
    simp only [List.mem_cons, Prod.mk.injEq, List.not_mem_nil, or_false] at hmem
    obtain ⟨rfl, rfl⟩ | ⟨rfl, rfl⟩ | ⟨rfl, rfl⟩ | ⟨rfl, rfl⟩ := hmem <;> exact ⟨rfl, rfl, rfl, rfl⟩
  have hacc : Accepted i (a.view flags) s e o := ⟨hop, hengine, hready, fun _ => hlen, hmore, ho⟩
  have hrun : o.runPrim (paramF s.params) flags a.len a.din = (o.overwrite (paramF s.params) a.din, []) := by
    rw [Engine.runPrim, hprim]
  have hrole : (o.overwrite (paramF s.params) a.din).role = e.role := hacc.role_of_not_transport hT hrun
  exact ⟨_, hacc.exec_eq hrun (final_of_nothing_produced flags), rfl, hrole, hacc.fresh_block hC,
    hacc.walk_inside overwriteRule hlen⟩

/-- Settles O43: the primitive is `AbsorbAndSet`, whose output byte is also the new state byte. -/
theorem sendEncOutputsCiphertext : Obligations.SendEncOutputsCiphertext := by
  intro a i flags s e o hmem hengine hready hlen hmore ho
  obtain ⟨hop, hprim, hheld, hT, htaken, hC⟩ : i.opView = some (a.view flags) ∧ primOf flags = .absorbAndSet ∧
      withheld flags = false ∧ flags.getLsbD 3 = true ∧
      (if flags.getLsbD 0 then Role.responder else .initiator) = .initiator ∧ flags.getLsbD 2 = true := by
    obtain heq | heq := List.mem_pair.mp hmem <;> cases heq <;> exact ⟨rfl, rfl, rfl, rfl, rfl, rfl⟩
  have hacc : Accepted i (a.view flags) s e o := ⟨hop, hengine, hready, fun _ => hlen, hmore, ho⟩
  have hrun : o.runPrim (paramF s.params) flags a.len a.din = o.absorbAndSet (paramF s.params) a.din := by
    rw [Engine.runPrim, hprim]
  have houtput : ∀ k, k < a.len → o.pos + k < e.rate → (o.absorbAndSet (paramF s.params) a.din).2.getD k 0 =
      Memory.read o.st (o.pos + k) ^^^ a.din.getD k 0 :=
    fun k => hacc.walk_output absorbAndSetRule hlen
  have hrole := hacc.role_of_transport hT htaken hrun
  refine ⟨_, _, hacc.exec_eq hrun (final_of_not_withheld hheld _), rfl, rfl,
    (Engine.walk_length _ _ _ _).trans hlen, hrole, hacc.fresh_block hC, houtput, fun hfit => ?_⟩
  obtain ⟨hpos, hbegin, hread⟩ := hacc.walk_inside absorbAndSetRule hlen hfit
  refine ⟨hpos, hbegin, fun p => (hread p).trans (ite_congr rfl (fun hp => ?_) fun _ => rfl)⟩
  have hbyte := houtput (p - o.pos) (by omega) (by omega)
  rw [Nat.add_sub_cancel' hp.1] at hbyte
  exact hbyte.symm

/-- Settles O44: the primitive is `Exchange`, with its output given out. -/
theorem recvEncOutputsPlaintext : Obligations.RecvEncOutputsPlaintext := by
  intro a i flags s e o hmem hengine hready hlen hmore ho
  obtain ⟨hop, hprim, hheld, hT, htaken, hC⟩ : i.opView = some (a.view flags) ∧ primOf flags = .exchange ∧
      withheld flags = false ∧ flags.getLsbD 3 = true ∧
      (if flags.getLsbD 0 then Role.responder else .initiator) = .responder ∧ flags.getLsbD 2 = true := by
    obtain heq | heq := List.mem_pair.mp hmem <;> cases heq <;> exact ⟨rfl, rfl, rfl, rfl, rfl, rfl⟩
  have hacc : Accepted i (a.view flags) s e o := ⟨hop, hengine, hready, fun _ => hlen, hmore, ho⟩
  have hrun : o.runPrim (paramF s.params) flags a.len a.din = o.exchange (paramF s.params) a.din := by
    rw [Engine.runPrim, hprim]
  have hrole := hacc.role_of_transport hT htaken hrun
  exact ⟨_, _, hacc.exec_eq hrun (final_of_not_withheld hheld _), rfl, rfl,
    (Engine.walk_length _ _ _ _).trans hlen, hrole, hacc.fresh_block hC,
    fun k => hacc.walk_output exchangeRule hlen, hacc.walk_inside exchangeRule hlen⟩

/-- Settles O45: the primitive is `CopyState`, which leaves the buffer as it was. -/
theorem sendMacCopiesTheState : Obligations.SendMacCopiesTheState := by
  intro a i flags s e o hmem hengine hready hmore ho
  obtain ⟨hop, hprim, hheld, hT, htaken, hC⟩ : i.opView = some (a.view flags) ∧ primOf flags = .copyState ∧
      withheld flags = false ∧ flags.getLsbD 3 = true ∧
      (if flags.getLsbD 0 then Role.responder else .initiator) = .initiator ∧ flags.getLsbD 2 = true := by
    obtain heq | heq := List.mem_pair.mp hmem <;> cases heq <;> exact ⟨rfl, rfl, rfl, rfl, rfl, rfl⟩
  have hacc : Accepted i (a.view flags) s e o :=
    ⟨hop, hengine, hready, count_lengthsAgree a (by rw [hprim]; rfl), hmore, ho⟩
  have hrun : o.runPrim (paramF s.params) flags a.len [] = o.copyState (paramF s.params) a.len := by
    rw [Engine.runPrim, hprim]
  have hlen : (List.replicate a.len (0x00 : Byte)).length = a.len := List.length_replicate
  have hrole := hacc.role_of_transport hT htaken hrun
  refine ⟨_, _, hacc.exec_eq hrun (final_of_not_withheld hheld _), rfl, rfl,
    (Engine.walk_length _ _ _ _).trans hlen, hrole, hacc.fresh_block hC,
    fun k => hacc.walk_output copyStateRule hlen, fun hfit => ?_⟩
  obtain ⟨hpos, hbegin, hread⟩ := hacc.walk_inside copyStateRule hlen hfit
  obtain ⟨hwf, _⟩ := hacc.start_window
  exact ⟨hpos, hbegin, Memory.eq_of_read (Engine.walk_wf _ _ _ hwf) hwf fun p => (hread p).trans (ite_self _)⟩

/-- Settles O46: the primitive is `Exchange`, whose output is withheld and checked. -/
theorem recvMacChecksTheWholeTag : Obligations.RecvMacChecksTheWholeTag := by
  intro a i flags s e o hmem hengine hready hlen hmore ho
  obtain ⟨hop, hprim, hheld, hT, htaken, hC⟩ : i.opView = some (a.view flags) ∧ primOf flags = .exchange ∧
      withheld flags = true ∧ flags.getLsbD 3 = true ∧
      (if flags.getLsbD 0 then Role.responder else .initiator) = .responder ∧ flags.getLsbD 2 = true := by
    obtain heq | heq := List.mem_pair.mp hmem <;> cases heq <;> exact ⟨rfl, rfl, rfl, rfl, rfl, rfl⟩
  have hacc : Accepted i (a.view flags) s e o := ⟨hop, hengine, hready, fun _ => hlen, hmore, ho⟩
  have hrun : o.runPrim (paramF s.params) flags a.len a.din = o.exchange (paramF s.params) a.din := by
    rw [Engine.runPrim, hprim]
  obtain ⟨hok, herror, hout⟩ := final_of_withheld hheld (o.exchange (paramF s.params) a.din).2
  have hrole := hacc.role_of_transport hT htaken hrun
  refine ⟨_, _, hacc.exec_eq hrun ⟨rfl, hout⟩, rfl, hok, herror, hrole, hacc.fresh_block hC,
    fun hfit => hok.trans ?_, hacc.walk_inside exchangeRule hlen⟩
  obtain ⟨hwf, hsame, hpos, hrate⟩ := hacc.start_window
  obtain ⟨_, _, _, _, htag⟩ := Engine.walk_block (paramF s.params) exchangeRule a.din hwf hpos hrate
    (by rwa [hlen, hsame])
  rw [Engine.exchange, htag, hlen]
  simp [exchangeRule]

/-- Settles O47: the primitive is `Squeeze`, whose input bytes are not looked at. -/
theorem prfSqueezesTheState : Obligations.PrfSqueezesTheState := by
  intro a i flags s e o hmem hengine hready hmore ho
  obtain ⟨hop, hprim, hheld, hT, hC⟩ : i.opView = some (a.view flags) ∧ primOf flags = .squeeze ∧
      withheld flags = false ∧ flags.getLsbD 3 = false ∧ flags.getLsbD 2 = true := by
    obtain heq | heq := List.mem_pair.mp hmem <;> cases heq <;> exact ⟨rfl, rfl, rfl, rfl, rfl⟩
  have hacc : Accepted i (a.view flags) s e o :=
    ⟨hop, hengine, hready, count_lengthsAgree a (by rw [hprim]; rfl), hmore, ho⟩
  have hrun : o.runPrim (paramF s.params) flags a.len [] = o.squeeze (paramF s.params) a.len := by
    rw [Engine.runPrim, hprim]
  have hlen : (List.replicate a.len (0x00 : Byte)).length = a.len := List.length_replicate
  have hrole := hacc.role_of_not_transport hT hrun
  exact ⟨_, _, hacc.exec_eq hrun (final_of_not_withheld hheld _), rfl, rfl,
    (Engine.walk_length _ _ _ _).trans hlen, hrole, hacc.fresh_block hC,
    fun k => hacc.walk_output squeezeRule hlen, hacc.walk_inside squeezeRule hlen⟩

/-- Zeroing has the effect of squeezing: both clear the bytes they pass (R108 item 3). -/
theorem zeroRun_eq_squeeze (F : Config.Block → Config.Block) (n : Nat) {e : Engine} (hpos : e.pos < e.rate) :
    e.zeroRun F n = (e.squeeze F n).1 := by
  rw [zeroRunIsOverwriteOfZeros F n e hpos]
  exact Engine.walk_congr F _ _ rfl (fun _ _ _ => by simp [overwriteRule, squeezeRule]) e

/-- Squeezing from the start of a block on leaves the bytes before the cursor zero, across any number of blocks:
after the whole blocks the cursor is back at 0, and the rest stays inside one block. -/
theorem read_squeeze_before_cursor (F : Config.Block → Config.Block) (n : Nat) {e : Engine}
    (hwf : Memory.wf e.st = true) (hpos : e.pos = 0) (hlt : e.pos < e.rate) (hrate : e.rate ≤ 198) {p : Nat}
    (hp : p < n % e.rate) : Memory.read (e.squeeze F n).1.st p = 0 := by
  have hblocks : (e.squeeze F (e.rate * (n / e.rate))).1.pos = 0 := by
    rw [Engine.squeeze, (Engine.walk_cursor F squeezeRule _ hlt).1, List.length_replicate, hpos, Nat.zero_add,
      Nat.mul_mod_right]
  have hsame : (e.squeeze F (e.rate * (n / e.rate))).1.rate = e.rate := Engine.walk_rate F squeezeRule _ e
  have hrest : n % e.rate < e.rate := Nat.mod_lt n (hpos ▸ hlt)
  obtain ⟨m, hstate, _, hread, _⟩ := Engine.walk_inside F squeezeRule (List.replicate (n % e.rate) 0x00)
    (e := (e.squeeze F (e.rate * (n / e.rate))).1) (Engine.walk_wf F squeezeRule _ hwf)
    (by rwa [hblocks, hsame, List.length_replicate, Nat.zero_add])
    (by rw [hsame]; exact hrate.trans (by decide))
  have hsplit : (e.squeeze F n).1 = ((e.squeeze F (e.rate * (n / e.rate))).1.squeeze F (n % e.rate)).1 := by
    conv_lhs => rw [← Nat.div_add_mod n e.rate, Engine.squeeze, walk_zeros_add]
    rfl
  rw [hsplit, Engine.squeeze, hstate]
  refine (hread p).trans (if_pos ?_)
  rw [hblocks, List.length_replicate]
  omega

/-- Settles O48: the primitive is `ZeroRun`, which has the effect of `Squeeze`. -/
theorem ratchetErasesTheState : Obligations.RatchetErasesTheState := by
  intro a i flags s e o hmem hengine hready hmore ho
  obtain ⟨hop, hprim, hT, hC⟩ : i.opView = some (a.view flags) ∧ primOf flags = .zeroRun ∧
      flags.getLsbD 3 = false ∧ flags.getLsbD 2 = true := by
    obtain heq | heq := List.mem_pair.mp hmem <;> cases heq <;> exact ⟨rfl, rfl, rfl, rfl⟩
  have hacc : Accepted i (a.view flags) s e o :=
    ⟨hop, hengine, hready, count_lengthsAgree a (by rw [hprim]; rfl), hmore, ho⟩
  obtain ⟨hwf, hsame, hlt, hrate⟩ := hacc.start_window
  have hrun : o.runPrim (paramF s.params) flags a.len [] = (o.zeroRun (paramF s.params) a.len, []) := by
    rw [Engine.runPrim, hprim]
  have hrole := hacc.role_of_not_transport hT hrun
  have hlen : (List.replicate a.len (0x00 : Byte)).length = a.len := List.length_replicate
  refine ⟨_, hacc.exec_eq hrun (final_of_nothing_produced flags), rfl, hrole, fun hopen => ?_, ?_⟩
  all_goals rw [zeroRun_eq_squeeze _ _ hlt]
  · obtain ⟨hpos, hbegin⟩ := hacc.fresh_block hC hopen
    have hcursor := (Engine.walk_cursor (paramF s.params) squeezeRule (List.replicate a.len 0x00) hlt).1
    rw [hlen, hpos, Nat.zero_add, hsame] at hcursor
    exact ⟨hpos, hbegin, hcursor, fun p hp => read_squeeze_before_cursor _ _ hwf hpos hlt hrate (hsame ▸ hp)⟩
  · exact hacc.walk_inside squeezeRule hlen

/-! ### The operations that absorb -/

/-- Role adjustment by the T bit (R125). -/
theorem framedFlags_eq (f : Byte) (role : Role) :
    framedFlags f role = if f.getLsbD 3 = true ∧ role = .responder then f ^^^ 0x01 else f := by
  have hflag : hasFlag f flagT = f.getLsbD 3 := by revert f; decide +kernel
  rw [framedFlags, hflag]
  simp only [Bool.and_eq_true, beq_iff_eq]
  rfl

theorem framedFlags_of_not_transport {f : Byte} (hT : f.getLsbD 3 = false) (role : Role) : framedFlags f role = f := by
  simp only [framedFlags_eq, hT, Bool.false_eq_true, false_and, if_false]

theorem framedFlags_of_transport {f : Byte} (hT : f.getLsbD 3 = true) (role : Role) :
    framedFlags f role = if role = .responder then f ^^^ 0x01 else f := by
  simp only [framedFlags_eq, hT, true_and]

/-- Absorbing bytes from index `q` on is XORing them there: past the last one there is nothing to XOR. -/
theorem absorbed_byte (b : Byte) (ds : List Byte) (q p : Nat) :
    (if q ≤ p ∧ p < q + ds.length then b ^^^ ds.getD (p - q) 0 else b) =
      b ^^^ (if q ≤ p then ds.getD (p - q) 0 else 0) := by
  by_cases hle : q ≤ p
  · by_cases hlt : p < q + ds.length
    · rw [if_pos ⟨hle, hlt⟩, if_pos hle]
    · rw [if_neg fun h => hlt h.2, if_pos hle, List.getD_eq_default _ _ (by omega)]
      exact BitVec.xor_zero.symm
  · rw [if_neg fun h => hle h.1, if_neg hle]
    exact BitVec.xor_zero.symm

theorem runPrim_absorb (F : Config.Block → Config.Block) {f : Byte} (hf : primOf f = .absorb) (len : Nat)
    (din : List Byte) (o : Engine) : o.runPrim F f len din = (o.absorb F din, []) := by
  rw [Engine.runPrim, hf]

namespace Accepted

variable {i : Instr} {v : OpView} {s : State} {e o : Engine}

/-- Without C, where an opening call has room for its two framing bytes (R126) or a continuation runs none. -/
theorem start_inside (h : Accepted i v s e o) (hC : v.flags &&& 0x24 = 0)
    (hfit : e.pos + (if v.more then 0 else 2) < e.rate) :
    o.pos = e.pos + (if v.more then 0 else 2) ∧ o.posBegin = (if v.more then e.posBegin else e.pos + 1) ∧
      ∀ p, Memory.read o.st p = Memory.read e.st p ^^^
        (if v.more = false ∧ p = e.pos then BitVec.ofNat 8 e.posBegin else 0) ^^^
        (if v.more = false ∧ p = e.pos + 1 then framedFlags v.flags o.role else 0) := by
  have hstart := h.start
  cases hmore : v.more with
  | true =>
    rw [hmore, if_pos rfl] at hstart
    simp [hstart]
  | false =>
    rw [hmore, if_neg Bool.false_ne_true] at hstart hfit
    obtain ⟨_, hrate⟩ := (Engine.windowOk_iff e).mp h.ready.windowOk
    obtain ⟨_, hwf, _⟩ := h.ready
    have hrole : o.role = decideRole v.flags e.role := by rw [hstart, beginOp_eq]
    have hframed : o = (e.negotiate v.flags).frameBytes (paramF s.params) (framedFlags v.flags o.role) := by
      rw [hrole, ← Engine.beginOp_of_not_confidential _ _ _ hC, hstart]
    obtain ⟨m, _, hread, hstate⟩ := frameBytes_inside (paramF s.params) (framedFlags v.flags o.role)
      (e := e.negotiate v.flags) hwf hrate hfit
    have ho := hframed.trans hstate
    refine ⟨congrArg Engine.pos ho, congrArg Engine.posBegin ho, fun p => ?_⟩
    rw [congrArg Engine.st ho]
    simp only [true_and]
    exact hread p

/-- Framing, where there is any, and then the input, all inside the block. -/
theorem absorb_inside (h : Accepted i v s e o) (hC : v.flags &&& 0x24 = 0) (hlen : v.din.length = v.len) {x : Engine}
    (hx : x = o.absorb (paramF s.params) v.din) {framed : Byte} (hframed : framedFlags v.flags x.role = framed)
    (hfit : e.pos + (if v.more then 0 else 2) + v.len < e.rate) :
    x.pos = e.pos + (if v.more then 0 else 2) + v.len ∧ x.posBegin = (if v.more then e.posBegin else e.pos + 1) ∧
      ∀ p, Memory.read x.st p = Memory.read e.st p ^^^
        (if v.more = false ∧ p = e.pos then BitVec.ofNat 8 e.posBegin else 0) ^^^
        (if v.more = false ∧ p = e.pos + 1 then framed else 0) ^^^
        (if e.pos + (if v.more then 0 else 2) ≤ p
          then v.din.getD (p - (e.pos + (if v.more then 0 else 2))) 0 else 0) := by
  obtain ⟨hpos, hbegin, hstart⟩ := h.start_inside hC (Nat.lt_of_add_right_lt hfit)
  obtain ⟨hpos', hbegin', hread⟩ := h.walk_inside absorbRule hlen (hpos ▸ hfit)
  obtain ⟨_, _, hrole, _⟩ := Engine.walk_sameFrame (paramF s.params) absorbRule v.din o
  subst hx hframed
  refine ⟨hpos'.trans (by rw [hpos]), hbegin'.trans hbegin, fun p => ?_⟩
  rw [Engine.absorb, hrole, ← hstart p, ← hpos, ← absorbed_byte, hlen]
  exact hread p

end Accepted

/-- Settles O40: without T the framed byte is the one issued. -/
theorem absorbWithoutTransport : Obligations.AbsorbWithoutTransport := by
  intro a i flags s e hmem hengine hready hlen hmore
  obtain ⟨hop, hprim, hT, hC⟩ : i.opView = some (a.view flags) ∧ primOf flags = .absorb ∧
      flags.getLsbD 3 = false ∧ flags &&& 0x24 = 0 := by
    simp only [List.mem_cons, Prod.mk.injEq, List.not_mem_nil, or_false] at hmem
    obtain ⟨rfl, rfl⟩ | ⟨rfl, rfl⟩ | ⟨rfl, rfl⟩ | ⟨rfl, rfl⟩ | ⟨rfl, rfl⟩ | ⟨rfl, rfl⟩ | ⟨rfl, rfl⟩ | ⟨rfl, rfl⟩ := hmem
      <;> exact ⟨rfl, rfl, rfl, rfl⟩
  have hacc : Accepted i (a.view flags) s e _ := ⟨hop, hengine, hready, fun _ => hlen, hmore, rfl⟩
  have hrun := runPrim_absorb (paramF s.params) hprim a.len a.din
    (if a.more then e else e.beginOp (paramF s.params) flags)
  have hrole := hacc.role_of_not_transport hT hrun
  exact ⟨_, hacc.exec_eq hrun (final_of_nothing_produced flags), rfl, hrole,
    hacc.absorb_inside hC hlen rfl (framedFlags_of_not_transport hT _)⟩

/-- Settles O41: an opening call takes the role first, and a Responder's framed byte has I inverted. -/
theorem absorbWithTransport : Obligations.AbsorbWithTransport := by
  intro a i flags taken s e hmem hengine hready hlen hmore
  obtain ⟨hop, hprim, hT, htaken, hC⟩ : i.opView = some (a.view flags) ∧ primOf flags = .absorb ∧
      flags.getLsbD 3 = true ∧ (if flags.getLsbD 0 then Role.responder else .initiator) = taken ∧
      flags &&& 0x24 = 0 := by
    simp only [List.mem_cons, Prod.mk.injEq, List.not_mem_nil, or_false] at hmem
    obtain ⟨rfl, rfl, rfl⟩ | ⟨rfl, rfl, rfl⟩ | ⟨rfl, rfl, rfl⟩ | ⟨rfl, rfl, rfl⟩ | ⟨rfl, rfl, rfl⟩ | ⟨rfl, rfl, rfl⟩ |
      ⟨rfl, rfl, rfl⟩ | ⟨rfl, rfl, rfl⟩ := hmem <;> exact ⟨rfl, rfl, rfl, rfl, rfl⟩
  have hacc : Accepted i (a.view flags) s e _ := ⟨hop, hengine, hready, fun _ => hlen, hmore, rfl⟩
  have hrun := runPrim_absorb (paramF s.params) hprim a.len a.din
    (if a.more then e else e.beginOp (paramF s.params) flags)
  have hrole := hacc.role_of_transport hT htaken hrun
  exact ⟨_, hacc.exec_eq hrun (final_of_nothing_produced flags), rfl, hrole,
    hacc.absorb_inside hC hlen rfl (framedFlags_of_transport hT _)⟩

/-! ### Two parties -/

/-- A send is framed as issued unless the sender is the Responder. -/
theorem framedFlags_of_send {f : Byte} (hT : f.getLsbD 3 = true) (hI : f.getLsbD 0 = false) (role : Role) :
    framedFlags f (decideRole f role) = if role = .responder then f ^^^ 0x01 else f := by
  simp only [framedFlags_of_transport hT, decideRole_eq, hT, hI]
  cases role <;> rfl

/-- A receive is framed with I inverted unless the receiver is the Initiator. -/
theorem framedFlags_of_receive {f : Byte} (hT : f.getLsbD 3 = true) (hI : f.getLsbD 0 = true) (role : Role) :
    framedFlags f (decideRole f role) = if role = .initiator then f else f ^^^ 0x01 := by
  simp only [framedFlags_of_transport hT, decideRole_eq, hT, hI]
  cases role <;> rfl

/-- What one party sends and the other receives, in matching roles, is framed with the same byte (R139). -/
theorem framedFlags_of_rolesMatch {f : Byte} (hT : f.getLsbD 3 = true) (hI : f.getLsbD 0 = false) {ra rb : Role}
    (hroles : RolesMatch ra rb) :
    framedFlags f (decideRole f ra) = framedFlags (f ^^^ 0x01) (decideRole (f ^^^ 0x01) rb) := by
  have hT' : (f ^^^ 0x01).getLsbD 3 = true := by rw [BitVec.getLsbD_xor, hT]; rfl
  have hI' : (f ^^^ 0x01).getLsbD 0 = true := by rw [BitVec.getLsbD_xor, hI]; rfl
  rw [framedFlags_of_send hT hI, framedFlags_of_receive hT' hI']
  obtain ⟨hsender, hreceiver⟩ | ⟨hsender, hreceiver⟩ := hroles
  · rw [if_neg hsender, if_neg hreceiver, BitVec.xor_assoc, BitVec.xor_self]
    exact BitVec.xor_zero.symm
  · rw [if_pos hsender, if_pos hreceiver]

theorem runF_sameDuplex (F : Config.Block → Config.Block) {a b : Engine} (h : a.SameDuplex b) :
    (a.runF F).SameDuplex (b.runF F) := by
  obtain ⟨hst, hpos, hbegin, hrate, hpad⟩ := h
  have hport : a.portBlock = b.portBlock := by
    simp only [Engine.portBlock, Engine.padInject, hst, hpos, hbegin, hrate, hpad]
  exact ⟨congrArg (Memory.permute F) hport, rfl, rfl, hrate, hpad⟩

theorem forceF_sameDuplex (F : Config.Block → Config.Block) {a b : Engine} (h : a.SameDuplex b) :
    (a.forceF F).SameDuplex (b.forceF F) := by
  obtain ⟨_, hpos, _⟩ := id h
  simp only [Engine.forceF, hpos]
  split
  · exact h
  · exact runF_sameDuplex F h

theorem forceConfidential_sameDuplex (F : Config.Block → Config.Block) (ff : Byte) {a b : Engine}
    (h : a.SameDuplex b) : (a.forceConfidential F ff).SameDuplex (b.forceConfidential F ff) := by
  simp only [Engine.forceConfidential]
  split_ifs
  · exact forceF_sameDuplex F h
  · exact h

/-- Opening two operations with the same framed byte keeps two engines in the same duplex state (R139). -/
theorem beginOp_sameDuplex (F : Config.Block → Config.Block) {f g : Byte} {a b : Engine}
    (hff : framedFlags f (decideRole f a.role) = framedFlags g (decideRole g b.role)) (h : a.SameDuplex b) :
    (a.beginOp F f).SameDuplex (b.beginOp F g) := by
  obtain ⟨hst, hpos, hbegin, hrate, hpad⟩ := h
  simp only [Engine.beginOp, Engine.negotiate_role, hff]
  apply forceConfidential_sameDuplex
  rw [Engine.frameBytes_eq, Engine.frameBytes_eq, Engine.negotiate_posBegin, Engine.negotiate_posBegin, hbegin]
  exact (Engine.walk_sameDuplex F absorbRule _ (a := { a.negotiate f with posBegin := a.pos + 1 })
    (b := { b.negotiate g with posBegin := b.pos + 1 }) ⟨hst, hpos, congrArg (· + 1) hpos, hrate, hpad⟩).1

/-- Exchange over the output of a walk that leaves its output in the state ends where that walk ends, and XORs the
state out of the output again. -/
theorem exchange_of_output (F : Config.Block → Config.Block) {r : ByteRule} {back : Byte → Byte}
    (hstate : ∀ b d, r.newState b d = r.output b d) (hback : ∀ b d, r.output b d ^^^ b = back d) (ds : List Byte)
    (e : Engine) : e.exchange F (e.walk F r ds).2 = ((e.walk F r ds).1, ds.map back) := by
  rw [Engine.exchange]
  induction ds generalizing e with
  | nil => rfl
  | cons d ds ih =>
    have hstep : e.step1 F exchangeRule (r.output (Memory.read e.st e.pos) d) = e.step1 F r d := by
      rw [Engine.step1, Engine.step1, hstate]
      rfl
    simp only [Engine.walk_cons, hstep, ih, List.map_cons]
    rw [← hback (Memory.read e.st e.pos) d]
    rfl

/-- Exchange over the ciphertext undoes AbsorbAndSet (R108 item 4). -/
theorem exchange_absorbAndSet (F : Config.Block → Config.Block) (pt : List Byte) (e : Engine) :
    e.exchange F (e.absorbAndSet F pt).2 = ((e.absorbAndSet F pt).1, pt) := by
  have hback : ∀ b d : Byte, b ^^^ d ^^^ b = d := fun b d => by
    rw [BitVec.xor_comm b d, BitVec.xor_assoc, BitVec.xor_self]
    exact BitVec.xor_zero
  rw [Engine.absorbAndSet, exchange_of_output F (back := id) (fun _ _ => rfl) hback, List.map_id]

/-- Exchange over the copied bytes outputs zeros and leaves the state CopyState leaves (R108 item 5). -/
theorem exchange_copyState (F : Config.Block → Config.Block) (n : Nat) (e : Engine) :
    e.exchange F (e.copyState F n).2 = ((e.copyState F n).1, List.replicate n 0x00) := by
  rw [Engine.copyState, exchange_of_output F (back := fun _ => 0) (fun _ _ => rfl) (fun _ _ => BitVec.xor_self),
    List.map_replicate]

/-- Exchange outputs only zeros exactly over the bytes that CopyState gives (R108 item 5). -/
theorem exchange_zeros_iff (F : Config.Block → Config.Block) (tag : List Byte) (e : Engine) :
    (∀ b ∈ (e.exchange F tag).2, b = 0) ↔ tag = (e.copyState F tag.length).2 := by
  refine ⟨fun hzeros => ?_, fun htag => ?_⟩
  · rw [Engine.exchange] at hzeros
    rw [Engine.copyState]
    induction tag generalizing e with
    | nil => rfl
    | cons d ds ih =>
      rw [Engine.walk_cons, List.forall_mem_cons] at hzeros
      obtain ⟨hfirst, hrest⟩ := hzeros
      have hd : d = Memory.read e.st e.pos := BitVec.xor_eq_zero_iff.mp hfirst
      have hstep : e.step1 F exchangeRule d = e.step1 F copyStateRule 0x00 := by rw [hd]; rfl
      rw [hstep] at hrest
      rw [List.length_cons, List.replicate_succ, Engine.walk_cons, ← ih _ hrest, hd]
      rfl
  · have hcopy := exchange_copyState F tag.length e
    rw [← htag] at hcopy
    rw [hcopy]
    exact fun _ => List.eq_of_mem_replicate

/-- Exchange over the same bytes keeps two engines in the same duplex state and outputs the same (R139). -/
theorem exchange_sameDuplex (F : Config.Block → Config.Block) (ds : List Byte) {a b : Engine} (h : a.SameDuplex b) :
    (a.exchange F ds).1.SameDuplex (b.exchange F ds).1 ∧ (a.exchange F ds).2 = (b.exchange F ds).2 :=
  Engine.walk_sameDuplex F exchangeRule ds h

/-- Settles O50: both framings absorb the same byte, and Exchange over the ciphertext undoes AbsorbAndSet. -/
theorem encryptionRoundTrip : Obligations.EncryptionRoundTrip := by
  intro s a b ea eb pt send recv hpair hab ha hb hreadya hreadyb hsame hroles
  obtain ⟨f, g, hsend, hrecv, hff⟩ : ∃ f g : Byte,
      (send, f) ∈ [(Instr.sendENC ⟨a, false, pt.length, pt⟩, (0x0E : Byte)),
        (.metaSendENC ⟨a, false, pt.length, pt⟩, 0x1E)] ∧
      (∀ ct, (recv ct, g) ∈ [(Instr.recvENC ⟨b, false, ct.length, ct⟩, (0x0F : Byte)),
        (.metaRecvENC ⟨b, false, ct.length, ct⟩, 0x1F)]) ∧
      framedFlags f (decideRole f ea.role) = framedFlags g (decideRole g eb.role) := by
    obtain ⟨rfl, rfl⟩ | ⟨rfl, rfl⟩ := hpair
    · exact ⟨0x0E, 0x0F, by simp, by simp, framedFlags_of_rolesMatch rfl rfl hroles⟩
    · exact ⟨0x1E, 0x1F, by simp, by simp, framedFlags_of_rolesMatch rfl rfl hroles⟩
  have hopen := beginOp_sameDuplex (paramF s.params) hff hsame
  obtain ⟨xa, ct, hexec, hxa, hct, hlen, _⟩ :=
    sendEncOutputsCiphertext _ send f s ea (ea.beginOp (paramF s.params) f) hsend ha hreadya rfl nofun rfl
  obtain ⟨xb, pt', hexec', hxb, hpt', _⟩ :=
    recvEncOutputsPlaintext _ (recv ct) g (s.completed a xa .ok ct) eb (eb.beginOp (paramF s.params) g) (hrecv ct)
      (completed_other_engine hab hb) hreadyb rfl nofun rfl
  obtain ⟨hend, hout⟩ := exchange_sameDuplex (paramF s.params) ct hopen
  rw [hct, exchange_absorbAndSet, ← hct] at hend hout
  have hplain : pt' = pt := hpt'.trans hout.symm
  refine ⟨xa, xb, ct, hlen, hexec, hplain ▸ hexec', ?_⟩
  rw [hxa, hxb]
  exact hend

/-- Settles O51: both framings absorb the same byte, and Exchange outputs only zeros over the bytes CopyState gave
and over no others. -/
theorem macAcceptsExactlyTheTag : Obligations.MacAcceptsExactlyTheTag := by
  intro s a b n ea eb send recv hpair hab ha hb hreadya hreadyb hsame hroles
  obtain ⟨f, g, hsend, hrecv, hff⟩ : ∃ f g : Byte,
      (send, f) ∈ [(Instr.sendMAC ⟨a, false, n⟩, (0x0C : Byte)), (.metaSendMAC ⟨a, false, n⟩, 0x1C)] ∧
      (∀ tag, (recv tag, g) ∈ [(Instr.recvMAC ⟨b, false, tag.length, tag⟩, (0x0D : Byte)),
        (.metaRecvMAC ⟨b, false, tag.length, tag⟩, 0x1D)]) ∧
      framedFlags f (decideRole f ea.role) = framedFlags g (decideRole g eb.role) := by
    obtain ⟨rfl, rfl⟩ | ⟨rfl, rfl⟩ := hpair
    · exact ⟨0x0C, 0x0D, by simp, by simp, framedFlags_of_rolesMatch rfl rfl hroles⟩
    · exact ⟨0x1C, 0x1D, by simp, by simp, framedFlags_of_rolesMatch rfl rfl hroles⟩
  have hopen := beginOp_sameDuplex (paramF s.params) hff hsame
  obtain ⟨xa, tag, hexec, hxa, htag, hlen, _⟩ :=
    sendMacCopiesTheState _ send f s ea (ea.beginOp (paramF s.params) f) hsend ha hreadya nofun rfl
  have hreceive := fun given => recvMacChecksTheWholeTag _ (recv given) g (s.completed a xa .ok tag) eb
    (eb.beginOp (paramF s.params) g) (hrecv given) (completed_other_engine hab hb) hreadyb rfl nofun rfl
  have hcheck : ∀ given : List Byte, given.length = n →
      ((∀ z ∈ ((eb.beginOp (paramF s.params) g).exchange (paramF s.params) given).2, z = 0) ↔ given = tag) := by
    intro given hgiven
    rw [← (exchange_sameDuplex (paramF s.params) given hopen).2, exchange_zeros_iff, hgiven, htag]
  obtain ⟨xb, status, hexec', hxb, hok, _⟩ := hreceive tag
  have hstatus : status = .ok := hok.mpr ((hcheck tag hlen).mpr rfl)
  obtain ⟨hend, _⟩ := exchange_sameDuplex (paramF s.params) tag hopen
  rw [htag, exchange_copyState, ← htag] at hend
  refine ⟨xa, xb, tag, hlen, hexec, hstatus ▸ hexec', by rw [hxa, hxb]; exact hend, fun bad hbad hne => ?_⟩
  obtain ⟨y, status', hexec'', _, _, herror, _⟩ := hreceive bad
  have hrefused : status' = .authenticationError := herror.mpr <| by
    by_contra hzeros
    push Not at hzeros
    exact hne ((hcheck bad hbad).mp hzeros)
  exact ⟨y, hrefused ▸ hexec''⟩

end Sys2Proof.Proofs

/-! Errors (60_exceptions.md): what each status says of the command it ends, and that no command ends without one. -/

namespace Sys2Proof.Proofs

open Sys2Proof.Machine

/-! ### What a status says of the command -/

/-- Everything a command that gives a next state can have done, with the status it answers: an OP failed one of
its checks, an INIT or a CLONE was refused, or the command ran, to OK or AuthenticationError (R201). -/
theorem exec_next_status {i : Instr} {s t : State} (h : exec i s = .next t) :
    (∃ v e st, i.opView = some v ∧ s.engines[v.engine]? = some e ∧ e.precheck v.flags v.more = some st ∧
        t = s.responded st []) ∨
      t = s.responded .configurationError [] ∨
      (∃ e st o, (st = .ok ∨ st = .authenticationError) ∧ t = s.completed i.writes e st o) := by
  rcases exec_shapes i with ⟨v, hv, hexec⟩ | ⟨n, sec, len, label, rfl⟩ | ⟨src, dst, rfl⟩ | ⟨n, rfl⟩
  · rw [hexec] at h
    rw [opView_writes hv]
    obtain ⟨e, hengine, ⟨st, hcheck, ht⟩ | ⟨_, _, _, ht⟩⟩ := execOp_next h
    · exact .inl ⟨v, e, st, hv, hengine, hcheck, ht⟩
    · exact .inr (.inr ⟨_, _, _, finalStatus_cases _, ht⟩)
  · obtain ⟨_, ⟨_, ht⟩ | ⟨_, _, _, ht⟩⟩ := execInit_next h
    · exact .inr (.inl ht)
    · exact .inr (.inr ⟨_, _, _, .inl rfl, ht⟩)
  · obtain ⟨_, _, _, _, _, _, hclone⟩ | hclone := execClone_next (s := s) (src := src) (dst := dst)
    · exact .inr (.inr ⟨_, _, _, .inl rfl, Host.Outcome.next.inj (h.symm.trans hclone)⟩)
    · exact .inr (.inl (Host.Outcome.next.inj (h.symm.trans hclone)))
  · obtain ⟨_, ht⟩ := execReset_next h
    exact .inr (.inr ⟨_, _, _, .inl rfl, ht⟩)

/-- A command that answers one of the two errors raised before any mutation only returned that response. -/
theorem exec_refusal_only_responds {i : Instr} {s t : State} {r : Response} (h : exec i s = .next t)
    (hr : t.responses = s.responses ++ [r])
    (herror : r.status = .configurationError ∨ r.status = .streamingProtocolViolation) :
    r.dout = [] ∧ t = s.responded r.status r.dout := by
  obtain ⟨_, _, _, _, _, _, rfl⟩ | rfl | ⟨_, _, _, hran, rfl⟩ := exec_next_status h <;>
    obtain rfl := List.singleton_inj.mp (List.append_cancel_left hr)
  · exact ⟨rfl, rfl⟩
  · exact ⟨rfl, rfl⟩
  · obtain rfl | rfl := hran <;> simp at herror

/-! ### The step by the waiting command -/

theorem step_idle {s : State} (h : s.pending = []) : step s = .next s := by
  simp only [step, State.accept, h, State.idle]

theorem step_instr {s : State} {c : Command} {rest : List Command} {i : Instr} (h : s.pending = c :: rest)
    (hd : decode c = .instr i) : step s = exec i { s with pending := rest } := by
  simp only [step, State.accept, h, hd]

theorem step_rejected {s : State} {c : Command} {rest : List Command} {why : Reject} (h : s.pending = c :: rest)
    (hd : decode c = .rejected why) :
    step s = .next (({ s with pending := rest } : State).responded .configurationError []) := by
  simp only [step, State.accept, h, hd, State.raise_eq]

/-- Settles O14: the two statuses come only from a refusal, which writes nothing; a step without a command
returns no response, and a rejected word is refused by the step itself. -/
theorem errorsBeforeMutationChangeNothing : Obligations.ErrorsBeforeMutationChangeNothing := by
  refine ⟨fun i s t r h hr herror => exec_refusal_only_responds h hr herror, fun s t r h hr herror => ?_⟩
  cases hp : s.pending with
  | nil =>
    obtain rfl := Host.Outcome.next.inj ((step_idle hp).symm.trans h)
    simp at hr
  | cons c rest =>
    cases hd : decode c with
    | instr i => exact exec_refusal_only_responds ((step_instr hp hd).symm.trans h) hr herror
    | rejected why =>
      obtain rfl := Host.Outcome.next.inj ((step_rejected hp hd).symm.trans h)
      obtain rfl := List.singleton_inj.mp (List.append_cancel_left hr)
      exact ⟨rfl, rfl⟩

/-! ### Continuations -/

/-- The continuation check is the last of the three, and it alone gives this status (R120, R129). -/
theorem precheck_eq_violation_iff {e : Engine} {flags : Byte} {more : Bool} :
    e.precheck flags more = some .streamingProtocolViolation ↔
      reservedSet flags = false ∧ e.initialized = true ∧ more = true ∧ flags ≠ e.activeFlags := by
  rw [Engine.precheck]
  cases reservedSet flags <;> cases e.initialized <;> cases more <;> simp

/-- Settles O19: no operation has a reserved flag bit, so on an initialised engine the continuation check
decides; and a violation answered is one that this check gave. -/
theorem mismatchedContinuationsAreRefused : Obligations.MismatchedContinuationsAreRefused := by
  constructor
  · intro i v s e hv hengine hinit hmore hflags
    rw [exec_of_opView hv]
    exact execOp_refused hengine (precheck_eq_violation_iff.mpr ⟨opView_not_reserved hv, hinit, hmore, hflags⟩)
  · intro i s t dout h hr
    obtain ⟨v, e, st, hv, hengine, hcheck, rfl⟩ | rfl | ⟨_, _, _, hran, rfl⟩ := exec_next_status h <;>
      have hresponse := List.singleton_inj.mp (List.append_cancel_left hr)
    · obtain ⟨rfl, _⟩ := Response.mk.inj hresponse
      obtain ⟨_, hinit, hmore, hflags⟩ := precheck_eq_violation_iff.mp hcheck
      exact ⟨v, e, hv, hengine, hinit, hmore, hflags⟩
    · cases hresponse
    · obtain rfl | rfl := hran <;> cases hresponse

/-! ### Completion -/

/-- The static check on an operation is the length agreement of its OP command (R50). -/
theorem lengthsAgree_of_wellFormed {i : Instr} {v : OpView} (hv : i.opView = some v) (hwf : i.wellFormed = true) :
    v.lengthsAgree := by
  cases i with
  | init | clone | reset => cases hv
  | sendMAC a | metaSendMAC a | prf a | metaPRF a | ratchet a | metaRATCHET a =>
    obtain rfl := Option.some.inj hv
    exact count_lengthsAgree a rfl
  | _ =>
    obtain rfl := Option.some.inj hv
    exact fun _ => eq_of_beq hwf

/-- An operation is addressed to the engine of its OP command. -/
theorem opView_engine_lt {i : Instr} {v : OpView} {n : Nat} (hv : i.opView = some v) (haddr : i.addressed n) :
    v.engine < n := by
  rw [← opView_writes hv]
  cases i with
  | clone => cases hv
  | _ => exact haddr

/-- An operation on an engine that meets R31 ends, refused or run, if its stream has its length. -/
theorem exec_op_completes {i : Instr} {v : OpView} {s : State} {e : Engine} (hv : i.opView = some v)
    (hengine : s.engines[v.engine]? = some e) (hinv : e.Inv) (hlen : v.lengthsAgree) : ∃ t, exec i s = .next t := by
  cases hcheck : e.precheck v.flags v.more with
  | some st => exact ⟨_, (exec_of_opView hv s).trans (execOp_refused hengine hcheck)⟩
  | none =>
    obtain ⟨_, hinit, hmore⟩ := Engine.precheck_eq_none_iff.mp hcheck
    exact ⟨_, exec_ready hv hengine ⟨hinit, hinv⟩ hlen hmore⟩

/-- A well-formed command to an engine that exists ends, from every state that meets R31 (R200). -/
theorem exec_completes {i : Instr} {s : State} (hinv : s.Inv) (hwf : i.wellFormed = true)
    (haddr : i.addressed s.engines.length) : ∃ t, exec i s = .next t := by
  rcases exec_shapes i with ⟨v, hv, _⟩ | ⟨n, sec, len, label, rfl⟩ | ⟨src, dst, rfl⟩ | ⟨n, rfl⟩
  · have hlt := opView_engine_lt hv haddr
    exact exec_op_completes hv (List.getElem?_eq_getElem hlt) (hinv _ (List.getElem_mem hlt))
      (lengthsAgree_of_wellFormed hv hwf)
  · cases hlevel : Level.ofSec sec with
    | none => exact ⟨_, exec_init_refused haddr hlevel len label⟩
    | some level =>
      obtain rfl : label.length = len := eq_of_beq hwf
      exact ⟨_, exec_init_runs haddr hlevel label⟩
  · obtain ⟨_, _, _, _, _, _, hclone⟩ | hclone := execClone_next (s := s) (src := src) (dst := dst)
    · exact ⟨_, hclone⟩
    · exact ⟨_, hclone⟩
  · exact ⟨_, if_pos haddr⟩

/-- Settles O11: a command that is executed completes, and every command that completes leaves the port alone and
returns one response; a rejected word is answered by the step itself. -/
theorem commandsAlwaysComplete : Obligations.CommandsAlwaysComplete := by
  intro s hinv hhost
  cases hp : s.pending with
  | nil => exact ⟨s, step_idle hp, hp, rfl⟩
  | cons c rest =>
    cases hd : decode c with
    | rejected why => exact ⟨_, step_rejected hp hd, rfl, by simp⟩
    | instr i =>
      obtain ⟨hwf, haddr⟩ := hhost c rest i hp hd
      obtain ⟨t, ht⟩ := exec_completes (s := { s with pending := rest }) hinv hwf haddr
      obtain ⟨_, hpending, _, _, r, hresponses⟩ := commandsTouchOnlyTheirEngine i _ t ht
      exact ⟨t, (step_instr hp hd).trans ht, hpending, by simp [hresponses]⟩

end Sys2Proof.Proofs

/-! Control is independent of data (41_duplex_primitives.md section 3): neither state nor data bytes reach the
cursor, the operation start or the number of output bytes. -/

namespace Sys2Proof.Proofs

open Sys2Proof.Machine

/-! ### Records that differ in buffer bytes only -/

/-- The two records agree in every field but the buffer (R112). -/
def SameControl (a b : Engine) : Prop := ∃ m, b = { a with st := m }

namespace SameControl

variable (F G : Config.Block → Config.Block) {a b : Engine}

theorem rate_eq (h : SameControl a b) : b.rate = a.rate := by
  obtain ⟨_, rfl⟩ := h
  rfl

theorem pos_eq (h : SameControl a b) : b.pos = a.pos := by
  obtain ⟨_, rfl⟩ := h
  rfl

theorem role_eq (h : SameControl a b) : b.role = a.role := by
  obtain ⟨_, rfl⟩ := h
  rfl

/-- The checks read no byte of the buffer (R120). -/
theorem precheck_eq (h : SameControl a b) (f : Byte) (more : Bool) : b.precheck f more = a.precheck f more := by
  obtain ⟨_, rfl⟩ := h
  rfl

theorem with_st_pos (h : SameControl a b) (m n : Memory) (p : Nat) :
    SameControl { a with st := m, pos := p } { b with st := n, pos := p } := by
  obtain ⟨_, rfl⟩ := h
  exact ⟨n, rfl⟩

theorem posBegin_at_cursor (h : SameControl a b) :
    SameControl { a with posBegin := a.pos + 1 } { b with posBegin := b.pos + 1 } := by
  obtain ⟨m, rfl⟩ := h
  exact ⟨m, rfl⟩

theorem with_activeFlags (h : SameControl a b) (f : Byte) :
    SameControl { a with activeFlags := f } { b with activeFlags := f } := by
  obtain ⟨m, rfl⟩ := h
  exact ⟨m, rfl⟩

theorem negotiate (h : SameControl a b) (f : Byte) : SameControl (a.negotiate f) (b.negotiate f) := by
  obtain ⟨m, rfl⟩ := h
  exact ⟨m, rfl⟩

/-! ### The trigger and the walk -/

theorem runF (h : SameControl a b) : SameControl (a.runF F) (b.runF G) := by
  obtain ⟨_, rfl⟩ := h
  exact ⟨_, rfl⟩

theorem wrap (h : SameControl a b) : SameControl (a.wrap F) (b.wrap G) := by
  rw [Engine.wrap, Engine.wrap, h.pos_eq, h.rate_eq]
  split
  · exact h.runF F G
  · exact h

theorem forceF (h : SameControl a b) : SameControl (a.forceF F) (b.forceF G) := by
  rw [Engine.forceF, Engine.forceF, h.pos_eq]
  split
  · exact h
  · exact h.runF F G

theorem step1 (h : SameControl a b) (r r' : ByteRule) (d d' : Byte) :
    SameControl (a.step1 F r d) (b.step1 G r' d') := by
  simp only [Engine.step1, Engine.advance, h.pos_eq]
  exact (h.with_st_pos _ _ _).wrap F G

/-- Where a walk leaves the control fields depends on the number of its steps alone: not on the bytes, nor on
the rule (R111, R112). -/
theorem walk (h : SameControl a b) (r r' : ByteRule) {ds ds' : List Byte} (hlen : ds'.length = ds.length) :
    SameControl (a.walk F r ds).1 (b.walk G r' ds').1 := by
  induction ds generalizing ds' a b with
  | nil =>
    obtain rfl := List.length_eq_zero_iff.mp hlen
    exact h
  | cons d ds ih =>
    obtain ⟨d', ds', rfl⟩ := List.exists_cons_of_length_eq_add_one hlen
    exact ih (h.step1 F G r r' d d') (Nat.succ.inj hlen)

/-! ### The operation -/

theorem frameBytes (h : SameControl a b) (ff : Byte) : SameControl (a.frameBytes F ff) (b.frameBytes G ff) := by
  rw [Engine.frameBytes_eq, Engine.frameBytes_eq]
  exact h.posBegin_at_cursor.walk F G absorbRule absorbRule rfl

theorem forceConfidential (h : SameControl a b) (ff : Byte) :
    SameControl (a.forceConfidential F ff) (b.forceConfidential G ff) := by
  rw [Engine.forceConfidential, Engine.forceConfidential]
  split
  · exact h.forceF F G
  · exact h

/-- Framing decides the same role, so it absorbs the same framed byte and forces the permutation alike. -/
theorem beginOp (h : SameControl a b) (f : Byte) : SameControl (a.beginOp F f) (b.beginOp G f) := by
  simp only [Engine.beginOp, (h.negotiate f).role_eq]
  exact ((h.negotiate f).frameBytes F G _).forceConfidential F G _

theorem enterOp (h : SameControl a b) (f : Byte) (more : Bool) :
    SameControl (a.enterOp F f more) (b.enterOp G f more) := by
  cases more with
  | true => exact h
  | false => exact (h.beginOp F G f).with_activeFlags f

/-- The primitive of every flag byte is a walk whose steps the lengths count, `ZeroRun` as the overwrite of
zeros (R107). -/
theorem runPrim (h : SameControl a b) (hpos : a.pos < a.rate) (f : Byte) (len : Nat) {din din' : List Byte}
    (hlen : din'.length = din.length) :
    SameControl (a.runPrim F f len din).1 (b.runPrim G f len din').1 ∧
      (b.runPrim G f len din').2.length = (a.runPrim F f len din).2.length := by
  have hwalk : ∀ (r : ByteRule) {ds ds' : List Byte}, ds'.length = ds.length →
      SameControl (a.walk F r ds).1 (b.walk G r ds').1 ∧ (b.walk G r ds').2.length = (a.walk F r ds).2.length :=
    fun r _ _ hl => ⟨h.walk F G r r hl, by rw [Engine.walk_length, Engine.walk_length, hl]⟩
  simp only [Engine.runPrim]
  cases primOf f with
  | absorb => exact ⟨(hwalk absorbRule hlen).1, rfl⟩
  | overwrite => exact ⟨(hwalk overwriteRule hlen).1, rfl⟩
  | absorbAndSet => exact hwalk absorbAndSetRule hlen
  | copyState => exact hwalk copyStateRule rfl
  | exchange => exact hwalk exchangeRule hlen
  | squeeze => exact hwalk squeezeRule rfl
  | zeroRun =>
    have hpos' : b.pos < b.rate := by rwa [h.pos_eq, h.rate_eq]
    rw [zeroRunIsOverwriteOfZeros F len a hpos, zeroRunIsOverwriteOfZeros G len b hpos']
    exact ⟨(hwalk overwriteRule rfl).1, rfl⟩

theorem opResult (h : SameControl a b) (hpos : a.pos < a.rate) (f : Byte) (more : Bool) (len : Nat)
    {din din' : List Byte} (hlen : din'.length = din.length) :
    SameControl (a.opResult F f more len din).1 (b.opResult G f more len din').1 ∧
      (b.opResult G f more len din').2.length = (a.opResult F f more len din).2.length := by
  obtain ⟨_, hrate, _⟩ := Engine.enterOp_frame F (flags := f) (more := more) a
  exact (h.enterOp F G f more).runPrim F G (hrate ▸ Engine.enterOp_pos_lt F hpos) f len hlen

end SameControl

/-! ### The command -/

/-- The bytes produced reach the status of an operation only if it checks a tag, and the length of its output only
by their number (R132, R159). -/
theorem final_control {f : Byte} {o o' : List Byte} (hlen : o'.length = o.length) :
    (finalOutput f o').length = (finalOutput f o).length ∧
      (f &&& 0x0F ≠ 0x0D → finalStatus f o' = finalStatus f o) := by
  obtain ⟨hstatus, hout⟩ := final_eq f o
  obtain ⟨hstatus', hout'⟩ := final_eq f o'
  rw [hstatus, hstatus', hout, hout']
  refine ⟨?_, fun hf => by simp only [hf, false_and, if_false]⟩
  split
  · rfl
  · exact hlen

/-- The record and the response an operation leaves, as functions of the record it found: a check failed, or it
ran. -/
theorem operation_leaves {i : Instr} {v : OpView} {s t : State} {e x : Engine} {r : Response}
    (hv : i.opView = some v) (hengine : s.engines[v.engine]? = some e) (h : exec i s = .next t)
    (hengine' : t.engines[v.engine]? = some x) (hresp : t.responses = s.responses ++ [r]) :
    (∃ st, e.precheck v.flags v.more = some st ∧ x = e ∧ r = ⟨st, []⟩) ∨
      (e.precheck v.flags v.more = none ∧ e.pos < e.rate ∧
        x = (e.opResult (paramF s.params) v.flags v.more v.len v.din).1 ∧
        r = ⟨finalStatus v.flags (e.opResult (paramF s.params) v.flags v.more v.len v.din).2,
          finalOutput v.flags (e.opResult (paramF s.params) v.flags v.more v.len v.din).2⟩) := by
  rw [exec_of_opView hv] at h
  obtain ⟨e₀, hg, ⟨st, hcheck, rfl⟩ | ⟨hcheck, hwindow, _, rfl⟩⟩ := execOp_next h <;>
    obtain rfl : e₀ = e := Option.some.inj (hg.symm.trans hengine)
  · exact .inl ⟨st, hcheck, Option.some.inj (hengine'.symm.trans hengine),
      (List.singleton_inj.mp (List.append_cancel_left hresp)).symm⟩
  · exact .inr ⟨hcheck, ((Engine.windowOk_iff e₀).mp hwindow).1,
      Option.some.inj (hengine'.symm.trans (completed_engine hengine _ _ _)),
      (List.singleton_inj.mp (List.append_cancel_left hresp)).symm⟩

/-- Settles O32: the checks answer alike on records that differ in buffer bytes only, and where they pass, both
runs walk the same number of steps. -/
theorem controlIsIndependentOfData : Obligations.ControlIsIndependentOfData := by
  intro i j v w s s' t t' e e' x x' r r' hv hw hview hlen he he' hcontrol ht ht' hx hx' hr hr'
  obtain ⟨din', rfl⟩ : ∃ din', w = { v with din := din' } := ⟨_, hview⟩
  have hsame : SameControl e e' := ⟨_, hcontrol⟩
  have hcheck := hsame.precheck_eq v.flags v.more
  obtain ⟨st, hst, rfl, rfl⟩ | ⟨hnone, hpos, rfl, rfl⟩ := operation_leaves hv he ht hx hr <;>
    obtain ⟨st', hst', rfl, rfl⟩ | ⟨hnone', _, rfl, rfl⟩ := operation_leaves hw he' ht' hx' hr'
  case inl.inl =>
    obtain rfl : st' = st := Option.some.inj (hst'.symm.trans (hcheck.trans hst))
    exact ⟨hcontrol, rfl, fun _ => rfl⟩
  case inl.inr => cases hnone'.symm.trans (hcheck.trans hst)
  case inr.inl => cases hst'.symm.trans (hcheck.trans hnone)
  case inr.inr =>
    obtain ⟨⟨m, hm⟩, hout⟩ :=
      hsame.opResult (paramF s.params) (paramF s'.params) hpos v.flags v.more v.len hlen
    exact ⟨by rw [hm], final_control hout⟩

end Sys2Proof.Proofs

/-! The invariants between commands (10_state.md section 3): reset meets them and every step keeps them. -/

namespace Sys2Proof.Proofs

open Sys2Proof.Machine

/-! ### One engine -/

theorem engineReset_inv : Engine.reset.Inv := ⟨rfl, fun _ => rfl, nofun⟩

/-- An operation without a reserved flag bit leaves a ready engine meeting R31: framing and the primitive keep the
configuration, the cursor inside the window and the operation start behind it. -/
theorem opResult_inv (F : Config.Block → Config.Block) {e : Engine} (hready : e.Ready) {f : Byte}
    (hf : f &&& 0xE0 = 0) (more : Bool) (len : Nat) (din : List Byte) : (e.opResult F f more len din).1.Inv := by
  have hpos := hready.pos_lt
  obtain ⟨hinit, hwf, _, hlive⟩ := hready
  obtain ⟨hlevel, hrate, _, hpad, hle, heq, hflags⟩ := hlive hinit
  obtain ⟨hlevel', hrate', hpad', hinit', _, hflags'⟩ :=
    Engine.opResult_frame F (flags := f) (more := more) (len := len) (din := din) hpos
  obtain ⟨hle', heq'⟩ := Engine.opResult_begin F (flags := f) (more := more) (len := len) (din := din) hpos ⟨hle, heq⟩
  have hlegal : (e.opResult F f more len din).1.activeFlags &&& 0xE0 = 0 := by
    rw [hflags']
    cases more with
    | true => exact hflags
    | false => exact hf
  refine ⟨Engine.opResult_wf F hpos hwf, fun hfalse => ?_, fun _ => ?_⟩
  · exact absurd ((hinit'.trans hinit).symm.trans hfalse) nofun
  · exact ⟨hlevel' ▸ hlevel, by rw [hrate', hlevel', hrate], hrate' ▸ Engine.opResult_pos_lt F hpos, hpad'.trans hpad,
      hle', heq', hlegal⟩

/-- The record on which INIT opens the label operation, field by field (R89 to R92): the header's flush has put the
cursor, and the operation start behind it, at 0. -/
theorem labelStart_eq (F : Config.Block → Config.Block) (separator : List Byte) (level : Level) :
    labelStart F separator level =
      { securityLevel := level, st := (labelStart F separator level).st, rate := Level.initialRate level - 2, pos := 0,
        posBegin := 0, role := .undecided, activeFlags := 0x00, padMode := .padded, initialized := true } := by
  have habsorb := Engine.walk_sameFrame F absorbRule (initHeader separator (initClear level).rate) (initClear level)
  obtain ⟨hlevel, _, hrole, hflags, _⟩ := habsorb.trans (Engine.forceF_sameFrame F _)
  have hbegin : (labelStart F separator level).posBegin = 0 := by
    have hwalk := Engine.walk_begin F absorbRule (initHeader separator (initClear level).rate)
      (e := initClear level) ⟨le_rfl, fun _ => rfl⟩
    change (Engine.forceF F _).posBegin = 0
    rw [Engine.forceF]
    split
    · next hpos => exact Nat.le_zero.mp (hwalk.1.trans hpos.le)
    · rfl
  exact (Engine.mk.injEq ..).mpr
    ⟨hlevel, rfl, labelStart_rate F separator level, Engine.forceF_pos F _, hbegin, hrole, hflags, rfl, rfl⟩

theorem labelStart_wf (F : Config.Block → Config.Block) (separator : List Byte) (level : Level) :
    Memory.wf (labelStart F separator level).st = true :=
  Engine.forceF_wf F (Engine.walk_wf F absorbRule _ rfl)

theorem labelStart_ready (F : Config.Block → Config.Block) (separator : List Byte) {level : Level}
    (hlevel : level ≠ .unset) : (labelStart F separator level).Ready := by
  have hwf := labelStart_wf F separator level
  have hroom : 0 < Level.initialRate level - 2 := by cases level <;> decide
  have hflags : (0x00 : Byte) &&& 0xE0 = 0 := by decide
  rw [labelStart_eq]
  exact ⟨rfl, hwf, nofun, fun _ => ⟨hlevel, rfl, hroom, rfl, le_rfl, fun _ => rfl, hflags⟩⟩

theorem level_ne_unset {sec : BitVec 16} {level : Level} (h : Level.ofSec sec = some level) : level ≠ .unset := by
  rintro rfl
  rw [Level.ofSec] at h
  split_ifs at h <;> cases h

/-- INIT opens the label operation on a ready engine, and that operation keeps R31. -/
theorem initEngine_inv (F : Config.Block → Config.Block) (separator label : List Byte) {level : Level}
    (hlevel : level ≠ .unset) : (initEngine F separator level label).Inv := by
  rw [initEngine_eq_opResult]
  exact opResult_inv F (labelStart_ready F separator hlevel) (by decide) _ _ _

/-! ### The machine -/

theorem inv_completed {s : State} (hinv : s.Inv) (t : Nat) {e : Engine} (he : e.Inv) (status : Status)
    (out : List Byte) : (s.completed t e status out).Inv := by
  intro x hx
  obtain hx | rfl := List.mem_or_eq_of_mem_set hx
  · exact hinv x hx
  · exact he

theorem exec_keeps_inv {i : Instr} {s t : State} (hinv : s.Inv) (h : exec i s = .next t) : t.Inv := by
  rcases exec_shapes i with ⟨v, hv, hexec⟩ | ⟨n, sec, len, label, rfl⟩ | ⟨src, dst, rfl⟩ | ⟨n, rfl⟩
  · rw [hexec] at h
    obtain ⟨e, hengine, ⟨_, _, rfl⟩ | ⟨hcheck, _, _, rfl⟩⟩ := execOp_next h
    · exact hinv
    · obtain ⟨hreserved, hinit, _⟩ := Engine.precheck_eq_none_iff.mp hcheck
      have hready : e.Ready := ⟨hinit, hinv e (List.mem_of_getElem? hengine)⟩
      exact inv_completed hinv _ (opResult_inv _ hready (bne_eq_false_iff_eq.mp hreserved) _ _ _) _ _
  · obtain ⟨_, ⟨_, rfl⟩ | ⟨_, hlevel, _, rfl⟩⟩ := execInit_next h
    · exact hinv
    · exact inv_completed hinv n (initEngine_inv _ _ _ (level_ne_unset hlevel)) _ _
  · obtain ⟨e, hengine, _, _, _, _, hclone⟩ | hclone := execClone_next (s := s) (src := src) (dst := dst) <;>
      obtain rfl := Host.Outcome.next.inj (hclone.symm.trans h)
    · exact inv_completed hinv dst (hinv e (List.mem_of_getElem? hengine)) _ _
    · exact hinv
  · obtain ⟨_, rfl⟩ := execReset_next h
    exact inv_completed hinv n engineReset_inv _ _

/-- Settles O10: a step idles, refuses a word without touching an engine, or executes a command, which keeps the
invariant. -/
theorem stepKeepsTheInvariant : Obligations.StepKeepsTheInvariant := by
  intro s t hinv h
  cases hp : s.pending with
  | nil =>
    obtain rfl := Host.Outcome.next.inj ((step_idle hp).symm.trans h)
    exact hinv
  | cons c rest =>
    cases hd : decode c with
    | instr i => exact exec_keeps_inv (s := { s with pending := rest }) hinv ((step_instr hp hd).symm.trans h)
    | rejected why =>
      obtain rfl := Host.Outcome.next.inj ((step_rejected hp hd).symm.trans h)
      exact hinv

/-- Settles O9: the engines of a machine that has just been reset hold their reset values. -/
theorem resetMeetsTheInvariant : Obligations.ResetMeetsTheInvariant := by
  intro e he
  obtain rfl : e = Engine.reset := by simpa [State.reset] using he
  exact engineReset_inv

end Sys2Proof.Proofs

/-! The decoder (30_encoding.md sections 2, 3 and 5): what it accepts and refuses, by the fields of the word and by the
opcode table, and the step on the word it has read. -/

namespace Sys2Proof.Proofs

open Sys2Proof.Machine

/-! ### What the decoder accepts -/

/-- Everything the decoder can have read as an instruction: an OP word without a reserved flag bit, or a word of
another kind with no stray field; the reserved field is zero in both (R63, R70). -/
theorem decode_instr_cases {c : Command} {i : Instr} (h : decode c = .instr i) :
    CmdWord.zero c.word = 0 ∧
      ((CmdWord.kind c.word = 0 ∧ CmdWord.flags c.word &&& reservedMask = 0 ∧
          i = decodeOp (CmdWord.flags c.word &&& 0x0F).toNat ((CmdWord.flags c.word).getLsbD 4) c) ∨
        (CmdWord.kind c.word ≠ 0 ∧ CmdWord.flags c.word = 0 ∧ CmdWord.more c.word = false ∧
          i = decodeControl (CmdWord.kind c.word).toNat c)) := by
  rw [decode] at h
  split_ifs at h with hzero hkind hreserved hstray <;> cases h
  · exact ⟨not_not.mp hzero, .inl ⟨hkind, not_not.mp hreserved, rfl⟩⟩
  · obtain ⟨hflags, hmore⟩ := not_or.mp hstray
    exact ⟨not_not.mp hzero, .inr ⟨hkind, not_not.mp hflags, Bool.eq_false_iff.mpr hmore, rfl⟩⟩

/-- A word that is no instruction's is answered with ConfigurationError (R70). -/
theorem step_refuses {s : State} {c : Command} {rest : List Command} (hp : s.pending = c :: rest)
    (hd : ∀ i, decode c ≠ .instr i) :
    step s = .next { s with pending := rest, responses := s.responses ++ [⟨.configurationError, []⟩] } := by
  cases hc : decode c with
  | instr i => exact absurd hc (hd i)
  | rejected why => exact step_rejected hp hc

/-- Settles O6: an OP word that the decoder accepts has no reserved flag bit. -/
theorem reservedFlagBitsAreRefused : Obligations.ReservedFlagBitsAreRefused := by
  intro s c rest hp hop hflags
  refine step_refuses hp fun i hd => ?_
  have hkind : CmdWord.kind c.word = 0 := by
    rw [CmdWord.kind, ← BitVec.setWidth_extractLsb'_of_le (show 2 ≤ 7 by decide), hop]
    rfl
  obtain ⟨_, ⟨_, hlegal, _⟩ | ⟨hne, _⟩⟩ := decode_instr_cases hd
  · exact hflags hlegal
  · exact hne hkind

/-- Settles O7: a word that the decoder accepts has bits [15:11] zero and, if its kind is not OP, no stray field. -/
theorem malformedWordsAreRefused : Obligations.MalformedWordsAreRefused := by
  intro s c rest hp hbad
  refine step_refuses hp fun i hd => ?_
  obtain ⟨hzero, hfields⟩ := decode_instr_cases hd
  obtain hset | ⟨hkind, hstray⟩ := hbad
  · exact hset hzero
  · obtain ⟨hop, _⟩ | ⟨_, hflags, hmore, _⟩ := hfields
    · exact hkind hop
    · exact hstray.elim (· hflags) (Bool.eq_false_iff.mp hmore)

/-- Settles O5: the step by the waiting command. -/
theorem stepRunsTheDecodedCommand : Obligations.StepRunsTheDecodedCommand :=
  ⟨fun _ _ _ _ hp hd => step_instr hp hd, fun _ hp => step_idle hp⟩

/-! ### Encoding what was decoded -/

/-- The encoding of a command read from a word of another kind than OP (R63). -/
theorem encode_decodeControl {kind : BitVec 2} (hkind : kind ≠ 0) (c : Command) :
    (encode (decodeControl kind.toNat c)).word = makeWord kind false 0 ∧
      (kind = 1 → (encode (decodeControl kind.toNat c)).engine = c.engine ∧
        (encode (decodeControl kind.toNat c)).sec = c.sec ∧ (encode (decodeControl kind.toNat c)).len = c.len ∧
        (encode (decodeControl kind.toNat c)).din = c.din) ∧
      (kind = 2 → (encode (decodeControl kind.toNat c)).src = c.src ∧
        (encode (decodeControl kind.toNat c)).dst = c.dst) ∧
      (kind = 3 → (encode (decodeControl kind.toNat c)).engine = c.engine) := by
  obtain rfl | rfl | rfl | rfl := kind_cases kind
  · exact absurd rfl hkind
  · exact ⟨rfl, fun _ => ⟨rfl, rfl, rfl, rfl⟩, nofun, nofun⟩
  · exact ⟨rfl, nofun, fun _ => ⟨rfl, rfl⟩, nofun⟩
  · exact ⟨rfl, nofun, nofun, fun _ => rfl⟩

/-- Settles O2: a flag byte without a reserved bit is decoded to the operation whose encoding carries it, the other
kinds are told apart by their number, and a word with bits [15:11] zero is made of its fields. -/
theorem encodeOfDecodeKeepsTheCommand : Obligations.EncodeOfDecodeKeepsTheCommand := by
  intro c i hd
  obtain ⟨hzero, ⟨hkind, hlegal, rfl⟩ | ⟨hkind, hflags, hmore, rfl⟩⟩ := decode_instr_cases hd
  · obtain ⟨hword, hengine, hlen, hdin⟩ := encode_decodeOp (mem_legalFlags _ hlegal) c
    have hother : ∀ k : BitVec 2, k ≠ 0 → c.word.extractLsb' 9 2 ≠ k := fun k hk h => hk (h.symm.trans hkind)
    refine ⟨?_, fun _ => ⟨hengine, hlen, hdin⟩, fun h => absurd h (hother 1 (by decide)),
      fun h => absurd h (hother 2 (by decide)), fun h => absurd h (hother 3 (by decide))⟩
    rw [hword, ← hkind, makeWord_fields hzero]
  · obtain ⟨hword, hinit, hclone, hreset⟩ := encode_decodeControl hkind c
    refine ⟨?_, fun h => absurd h hkind, hinit, hclone, hreset⟩
    rw [hword, ← hmore, ← hflags, makeWord_fields hzero]

/-! ### The opcode table -/

/-- Every instruction's word belongs to the row that carries its mnemonic. -/
theorem encode_in_row (i : Instr) : Laws.TableRow.Statement i :=
  match i with
  | .ad a => Laws.TableRow.ad a
  | .metaAD a => Laws.TableRow.metaAD a
  | .key a => Laws.TableRow.key a
  | .metaKEY a => Laws.TableRow.metaKEY a
  | .sendCLR a => Laws.TableRow.sendCLR a
  | .metaSendCLR a => Laws.TableRow.metaSendCLR a
  | .recvCLR a => Laws.TableRow.recvCLR a
  | .metaRecvCLR a => Laws.TableRow.metaRecvCLR a
  | .sendENC a => Laws.TableRow.sendENC a
  | .metaSendENC a => Laws.TableRow.metaSendENC a
  | .recvENC a => Laws.TableRow.recvENC a
  | .metaRecvENC a => Laws.TableRow.metaRecvENC a
  | .sendMAC a => Laws.TableRow.sendMAC a
  | .metaSendMAC a => Laws.TableRow.metaSendMAC a
  | .recvMAC a => Laws.TableRow.recvMAC a
  | .metaRecvMAC a => Laws.TableRow.metaRecvMAC a
  | .prf a => Laws.TableRow.prf a
  | .metaPRF a => Laws.TableRow.metaPRF a
  | .ratchet a => Laws.TableRow.ratchet a
  | .metaRATCHET a => Laws.TableRow.metaRATCHET a
  | .op00 m a => Laws.TableRow.op00 m a
  | .op01 m a => Laws.TableRow.op01 m a
  | .op03 m a => Laws.TableRow.op03 m a
  | .op05 m a => Laws.TableRow.op05 m a
  | .op08 m a => Laws.TableRow.op08 m a
  | .op09 m a => Laws.TableRow.op09 m a
  | .init t sec len label => Laws.TableRow.init t sec len label
  | .clone src dst => Laws.TableRow.clone src dst
  | .reset t => Laws.TableRow.reset t

/-- A word that the decoder accepts belongs to the row of the instruction read. -/
theorem decoded_word_in_row {c : Command} {i : Instr} (h : decode c = .instr i) :
    ∃ row ∈ opcodeRows, row.mnemonic = i.mnemonic ∧ c.word &&& row.mask = row.pattern := by
  obtain ⟨hword, _⟩ := encodeOfDecodeKeepsTheCommand c i h
  obtain ⟨row, hrow, hname, hmatch⟩ := encode_in_row i
  exact ⟨row, hrow, hname, hword ▸ hmatch⟩

/-- No two rows share a mnemonic. -/
theorem row_eq_of_mnemonic :
    ∀ row ∈ opcodeRows, ∀ row' ∈ opcodeRows, row.mnemonic = row'.mnemonic → row = row' := by decide +kernel

/-- Two different rows differ on a bit that both masks fix. -/
theorem row_eq_of_patterns : ∀ row ∈ opcodeRows, ∀ row' ∈ opcodeRows,
    row.pattern &&& row'.mask = row'.pattern &&& row.mask → row = row' := by decide +kernel

/-- A word belongs to one row at most. -/
theorem row_unique {w : CmdWord} {row row' : OpcodeRow} (hrow : row ∈ opcodeRows) (hrow' : row' ∈ opcodeRows)
    (h : w &&& row.mask = row.pattern) (h' : w &&& row'.mask = row'.pattern) : row = row' := by
  apply row_eq_of_patterns row hrow row' hrow'
  rw [← h, ← h', BitVec.and_assoc, BitVec.and_assoc, BitVec.and_comm row.mask]

/-- What a row fixes of the fields the decoder checks: bits [15:11] and the kind, and then in an OP row the reserved
flag bits, in any other row the flag byte and `more`. -/
theorem row_fields : ∀ row ∈ opcodeRows,
    (CmdWord.zero row.mask = 31 ∧ CmdWord.zero row.pattern = 0) ∧ CmdWord.kind row.mask = 3 ∧
      ((CmdWord.kind row.pattern = 0 ∧ CmdWord.flags row.mask &&& reservedMask = reservedMask ∧
          CmdWord.flags row.pattern &&& reservedMask = 0) ∨
        (CmdWord.kind row.pattern ≠ 0 ∧ (CmdWord.flags row.mask = 0xFF ∧ CmdWord.flags row.pattern = 0) ∧
          CmdWord.more row.mask = true ∧ CmdWord.more row.pattern = false)) := by decide +kernel

/-- A word that belongs to a row is accepted. -/
theorem decode_of_row {c : Command} {row : OpcodeRow} (hrow : row ∈ opcodeRows)
    (hmatch : c.word &&& row.mask = row.pattern) : ∃ i, decode c = .instr i := by
  have hz : CmdWord.zero c.word &&& CmdWord.zero row.mask = CmdWord.zero row.pattern := by
    rw [← hmatch]; exact BitVec.extractLsb'_and.symm
  have hk : CmdWord.kind c.word &&& CmdWord.kind row.mask = CmdWord.kind row.pattern := by
    rw [← hmatch]; exact BitVec.extractLsb'_and.symm
  have hf : CmdWord.flags c.word &&& CmdWord.flags row.mask = CmdWord.flags row.pattern := by
    rw [← hmatch]; exact BitVec.extractLsb'_and.symm
  have hm : (CmdWord.more c.word && CmdWord.more row.mask) = CmdWord.more row.pattern := by
    rw [← hmatch]; exact (BitVec.getLsbD_and ..).symm
  obtain ⟨⟨hzmask, hzpat⟩, hkmask, hrest⟩ := row_fields row hrow
  have hzero : CmdWord.zero c.word = 0 := by
    rw [← hzpat, ← hz, hzmask]; exact BitVec.and_allOnes.symm
  have hkind : CmdWord.kind c.word = CmdWord.kind row.pattern := by
    rw [← hk, hkmask]; exact BitVec.and_allOnes.symm
  obtain ⟨hop, hfmask, hfpat⟩ | ⟨hop, ⟨hfmask, hfpat⟩, hmmask, hmpat⟩ := hrest
  · have hlegal : CmdWord.flags c.word &&& reservedMask = 0 := by
      rw [← hfmask, ← BitVec.and_assoc, hf, hfpat]
    exact ⟨_, by rw [decode, if_neg (not_not.mpr hzero), if_pos (hkind.trans hop), if_neg (not_not.mpr hlegal)]⟩
  · have hflags : CmdWord.flags c.word = 0 := by
      rw [← hfpat, ← hf, hfmask]; exact BitVec.and_allOnes.symm
    have hmore : CmdWord.more c.word = false := by simpa [hmmask, hmpat] using hm
    have hstray : ¬ (CmdWord.flags c.word ≠ 0 ∨ CmdWord.more c.word = true) :=
      not_or.mpr ⟨not_not.mpr hflags, Bool.eq_false_iff.mp hmore⟩
    exact ⟨_, by rw [decode, if_neg (not_not.mpr hzero), if_neg (hkind ▸ hop), if_neg hstray]⟩

/-- Settles O3: a word of a row is accepted, the instruction read belongs to a row of its own, and a word belongs to
one row only. -/
theorem decoderFollowsTheOpcodeTable : Obligations.DecoderFollowsTheOpcodeTable := by
  intro c row hrow
  constructor
  · intro hmatch
    obtain ⟨i, hd⟩ := decode_of_row hrow hmatch
    obtain ⟨row', hrow', hname, hmatch'⟩ := decoded_word_in_row hd
    exact ⟨i, hd, by rw [← hname, row_unique hrow' hrow hmatch' hmatch]⟩
  · rintro ⟨i, hd, hname⟩
    obtain ⟨row', hrow', hname', hmatch'⟩ := decoded_word_in_row hd
    obtain rfl := row_eq_of_mnemonic row' hrow' row hrow (hname'.trans hname)
    exact hmatch'

end Sys2Proof.Proofs

/-! The laws of the primitives (41_duplex_primitives.md section 3), and the permutation trigger in both modes. -/

namespace Sys2Proof.Proofs

open Sys2Proof.Machine

/-! ### The permutation trigger -/

theorem portBlock_eq (e : Engine) : e.portBlock = (if e.padMode = .padded then e.padInject else e).st := by
  cases hmode : e.padMode with
  | plain => exact portBlock_plain hmode
  | padded => exact portBlock_padded hmode

/-- Settles O22: the block handed to `F` is the port buffer, padded or bare. -/
theorem permutationTriggerReplacesTheBuffer : Obligations.PermutationTriggerReplacesTheBuffer := by
  intro F e
  obtain ⟨b, hb, hst, hrest⟩ := runF_effect F e
  exact ⟨⟨b, fun a h => by rw [hb a h, portBlock_eq], hst⟩, hrest, Engine.runF_wf F e⟩

/-! ### Concatenation and the cursor -/

/-- Settles O26: six primitives are walks, over the data or over zeros, and `ZeroRun` is the overwrite of zeros. -/
theorem primitivesObeyConcatenation : Obligations.PrimitivesObeyConcatenation := by
  intro F a b m n e hpos
  have hstream := fun r : ByteRule => Prod.ext_iff.mp (Engine.walk_append F r a b e)
  have hcount := fun r : ByteRule => Prod.ext_iff.mp (walk_zeros_add F r m n e)
  exact ⟨(hstream absorbRule).1, (hstream overwriteRule).1, (hstream absorbAndSetRule).1, (hstream absorbAndSetRule).2,
    (hcount copyStateRule).1, (hcount copyStateRule).2, (hstream exchangeRule).1, (hstream exchangeRule).2,
    (hcount squeezeRule).1, (hcount squeezeRule).2, zeroRun_add F m n hpos⟩

/-- Settles O27: every primitive over `n` bytes is a walk of `n` steps. -/
theorem primitivesMoveTheCursorByTheirLength : Obligations.PrimitivesMoveTheCursorByTheirLength := by
  intro F data e hpos x hx
  obtain ⟨r, ds, hlen, rfl⟩ : ∃ r ds, ds.length = data.length ∧ x = (e.walk F r ds).1 := by
    have hzeros : (List.replicate data.length (0x00 : Byte)).length = data.length := List.length_replicate
    rw [zeroRunIsOverwriteOfZeros F _ e hpos] at hx
    simp only [List.mem_cons, List.not_mem_nil, or_false] at hx
    obtain rfl | rfl | rfl | rfl | rfl | rfl | rfl := hx
    · exact ⟨absorbRule, data, rfl, rfl⟩
    · exact ⟨overwriteRule, data, rfl, rfl⟩
    · exact ⟨absorbAndSetRule, data, rfl, rfl⟩
    · exact ⟨copyStateRule, _, hzeros, rfl⟩
    · exact ⟨exchangeRule, data, rfl, rfl⟩
    · exact ⟨squeezeRule, _, hzeros, rfl⟩
    · exact ⟨overwriteRule, _, hzeros, rfl⟩
  rw [← hlen]
  exact Engine.walk_cursor F r ds hpos

/-! ### One primitive as another -/

/-- The first outputs of a walk are the outputs over the first bytes. -/
theorem walk_output_take (F : Config.Block → Config.Block) (r : ByteRule) (k : Nat) (ds : List Byte) (e : Engine) :
    (e.walk F r ds).2.take k = (e.walk F r (ds.take k)).2 := by
  induction ds generalizing k e with
  | nil => simp
  | cons d ds ih =>
    cases k with
    | zero => rfl
    | succ k => simp only [List.take_succ_cons, Engine.walk_cons, ih]

/-- Copying the state is absorbing zeros with the sum output (R108 item 2). -/
theorem copyState_eq_absorbAndSet (F : Config.Block → Config.Block) (n : Nat) (e : Engine) :
    e.copyState F n = e.absorbAndSet F (List.replicate n 0x00) := by
  refine Engine.walk_ext F _ _ rfl (fun s i _ => ?_) e
  have hzero : (List.replicate n (0x00 : Byte)).getD i 0 = 0 := by
    rw [List.getD_eq_getElem?_getD, List.getElem?_getD_replicate_default_eq]
  rw [hzero]
  exact ⟨BitVec.xor_zero.symm, BitVec.xor_zero.symm⟩

/-- Settles O29: the rules of `CopyState` and of `AbsorbAndSet` of zeros are one; up to the boundary `Squeeze` and
`CopyState` both output the bytes that stood under the cursor. -/
theorem countedPrimitivesAsStreamPrimitives : Obligations.CountedPrimitivesAsStreamPrimitives := by
  intro F n e hpos
  refine ⟨copyState_eq_absorbAndSet F n e, (zeroRun_eq_squeeze F n hpos).symm, fun k hk hwf hrate => ?_⟩
  have hfit : e.pos + min k n ≤ e.rate := (Nat.add_le_add_left (Nat.min_le_left k n) _).trans hk
  obtain ⟨_, _, _, _, hsqueezed⟩ := walk_zeros_block F squeezeRule (min k n) hwf hpos hrate hfit
  obtain ⟨_, _, _, _, hcopied⟩ := walk_zeros_block F copyStateRule (min k n) hwf hpos hrate hfit
  rw [Engine.squeeze, Engine.copyState, walk_output_take, walk_output_take, List.take_replicate, hsqueezed, hcopied]
  rfl

/-- Settles O30: the law R108 item 4. -/
theorem exchangeUndoesAbsorbAndSet : Obligations.ExchangeUndoesAbsorbAndSet :=
  fun F p e => exchange_absorbAndSet F p e

/-- Settles O31: Exchange outputs only zeros over the bytes CopyState gives and over no others, and the OR of bytes is
zero exactly if all of them are. -/
theorem exchangeDetectsAnAlteredTag : Obligations.ExchangeDetectsAnAlteredTag := by
  refine fun F n e => ⟨exchange_copyState F n e, fun tag hlen hne hzero => hne ?_⟩
  rw [(exchange_zeros_iff F tag e).mp ((orAll_eq_zero _).mp hzero), hlen]

end Sys2Proof.Proofs

/-! The checks and the frame of an operation (42_framing.md): who refuses, where the model stops, what an operation
leaves of the record and of the buffer, and operations of length zero. -/

namespace Sys2Proof.Proofs

open Sys2Proof.Machine

/-! ### Engines that refuse -/

/-- The second check of R120 comes before the continuation check, and both it and the first give one status. -/
theorem precheck_of_uninitialised {e : Engine} (h : e.initialized = false) (flags : Byte) (more : Bool) :
    e.precheck flags more = some .configurationError := by
  rw [Engine.precheck, h]
  split <;> rfl

/-- Settles O18: the checks of an operation refuse, and CLONE copies from an initialised engine only. -/
theorem uninitialisedEnginesRefuse : Obligations.UninitialisedEnginesRefuse := by
  constructor
  · intro i v s e hv hengine hinit
    rw [exec_of_opView hv]
    exact execOp_refused hengine (precheck_of_uninitialised hinit _ _)
  · intro src dst s e hengine hinit
    obtain ⟨e', hengine', _, _, _, hinit', _⟩ | hrefused := execClone_next (s := s) (src := src) (dst := dst)
    · obtain rfl := Option.some.inj (hengine.symm.trans hengine')
      cases hinit.symm.trans hinit'
    · exact hrefused

/-! ### Where the model stops -/

theorem addressed_of_engine_lt {i : Instr} {v : OpView} {n : Nat} (hv : i.opView = some v) (h : v.engine < n) :
    i.addressed n := by
  rw [← opView_writes hv] at h
  cases i with
  | clone => trivial
  | _ => exact h

/-- A command to an engine number with no engine (log entry 5). -/
theorem exec_not_addressed {i : Instr} {s : State} (h : ¬ i.addressed s.engines.length) :
    exec i s = .fault (.noSuchEngine i.writes) := by
  rcases exec_shapes i with ⟨v, hv, hexec⟩ | ⟨n, sec, len, label, rfl⟩ | ⟨src, dst, rfl⟩ | ⟨n, rfl⟩
  · have hge : s.engines.length ≤ v.engine := Nat.le_of_not_lt fun hlt => h (addressed_of_engine_lt hv hlt)
    rw [hexec, opView_writes hv]
    exact execOp_missing (List.getElem?_eq_none hge)
  · exact if_neg h
  · exact absurd trivial h
  · exact if_neg h

/-- A cursor outside its window stops an operation that passes its checks (log entry 7). -/
theorem execOp_outside_window {flags : Byte} {t : Nat} {more : Bool} {s : State} {e : Engine}
    (hengine : s.engines[t]? = some e) (hcheck : e.precheck flags more = none) (hwindow : e.windowOk = false)
    (len : Nat) (din : List Byte) : execOp flags t more len din s = .fault .cursorOutsideWindow := by
  simp only [execOp, hengine, hcheck, hwindow]
  rfl

/-- A stream of another length stops an operation that passes its checks (log entry 6). -/
theorem execOp_stream_mismatch {flags : Byte} {t : Nat} {more : Bool} {s : State} {e : Engine} {len : Nat}
    {din : List Byte} (hengine : s.engines[t]? = some e) (hcheck : e.precheck flags more = none)
    (hwindow : e.windowOk = true) (hlen : streamMismatch flags len din = true) :
    execOp flags t more len din s = .fault (.streamLength len din.length) := by
  simp only [execOp, hengine, hcheck, hwindow, hlen]
  rfl

/-- The machine's length check is the length agreement of R50. -/
theorem lengthsAgree_iff (v : OpView) : v.lengthsAgree ↔ streamMismatch v.flags v.len v.din = false := by
  refine ⟨streamMismatch_of_lengthsAgree, fun h hinput => ?_⟩
  rw [streamMismatch, hinput, Bool.true_and] at h
  exact bne_eq_false_iff_eq.mp h

/-- Settles O20: each stop is one branch of the command's meaning. -/
theorem modelStopsWhereTheSpecGivesNoEffect : Obligations.ModelStopsWhereTheSpecGivesNoEffect := by
  refine ⟨fun i s => exec_not_addressed, ?stream, ?label, ?window⟩
  case stream =>
    intro i v s e hv hengine hready hmore hlen
    rw [lengthsAgree_iff, Bool.not_eq_false] at hlen
    rw [exec_of_opView hv]
    exact execOp_stream_mismatch hengine
      (Engine.precheck_eq_none_iff.mpr ⟨opView_not_reserved hv, hready.1, hmore⟩) hready.windowOk hlen
  case label =>
    intro s t sec len label ht hsec hlen
    obtain ⟨level, hlevel⟩ := exists_level_ofSec hsec
    simp only [exec, execInit, if_pos ht, hlevel, if_neg hlen]
  case window =>
    intro i v s e hv hengine hinit hmore hout
    have hwindow : e.windowOk = false := by
      rw [← Bool.not_eq_true, Engine.windowOk_iff]
      omega
    rw [exec_of_opView hv]
    exact execOp_outside_window hengine
      (Engine.precheck_eq_none_iff.mpr ⟨opView_not_reserved hv, hinit, hmore⟩) hwindow _ _

/-! ### What an operation leaves -/

/-- The record an operation leaves: a refused one leaves it alone, one that ran leaves what the OP command gives. -/
theorem operation_record {i : Instr} {v : OpView} {s t : State} {e e' : Engine} (hv : i.opView = some v)
    (h : exec i s = .next t) (hengine : s.engines[v.engine]? = some e) (hengine' : t.engines[v.engine]? = some e') :
    e' = e ∨ (e.precheck v.flags v.more = none ∧ e.windowOk = true ∧ v.lengthsAgree ∧
      e' = (e.opResult (paramF s.params) v.flags v.more v.len v.din).1) := by
  rw [exec_of_opView hv] at h
  obtain ⟨e₀, hg, ⟨_, _, rfl⟩ | ⟨hcheck, hwindow, hlen, rfl⟩⟩ := execOp_next h <;>
    obtain rfl : e₀ = e := Option.some.inj (hg.symm.trans hengine)
  · exact .inl (Option.some.inj (hengine'.symm.trans hengine))
  · exact .inr ⟨hcheck, hwindow, (lengthsAgree_iff v).mpr hlen,
      Option.some.inj (hengine'.symm.trans (completed_engine hengine _ _ _))⟩

/-- Settles O15: neither a refusal nor the OP command in full writes the four fields. -/
theorem operationsKeepTheConfiguration : Obligations.OperationsKeepTheConfiguration := by
  intro i v s t e e' hv h hengine hengine'
  obtain rfl | ⟨_, hwindow, _, rfl⟩ := operation_record hv h hengine hengine'
  · exact ⟨rfl, rfl, rfl, rfl⟩
  · obtain ⟨hlevel, hrate, hpad, hinit, _⟩ := Engine.opResult_frame (paramF s.params) (flags := v.flags)
      (more := v.more) (len := v.len) (din := v.din) ((Engine.windowOk_iff e).mp hwindow).1
    exact ⟨hlevel, hrate, hpad, hinit⟩

/-- Whatever the flags, the primitive run over `len` bytes is a walk of `len` steps. -/
theorem runPrim_eq_walk (F : Config.Block → Config.Block) (f : Byte) (len : Nat) (din : List Byte) {e : Engine}
    (hpos : e.pos < e.rate) (hlen : takesInput (primOf f) = true → din.length = len) :
    ∃ r ds, ds.length = len ∧ (e.runPrim F f len din).1 = (e.walk F r ds).1 := by
  have hzeros : (List.replicate len (0x00 : Byte)).length = len := List.length_replicate
  rw [Engine.runPrim]
  cases hprim : primOf f with
  | absorb => exact ⟨absorbRule, din, hlen (hprim ▸ rfl), rfl⟩
  | overwrite => exact ⟨overwriteRule, din, hlen (hprim ▸ rfl), rfl⟩
  | absorbAndSet => exact ⟨absorbAndSetRule, din, hlen (hprim ▸ rfl), rfl⟩
  | copyState => exact ⟨copyStateRule, _, hzeros, rfl⟩
  | exchange => exact ⟨exchangeRule, din, hlen (hprim ▸ rfl), rfl⟩
  | squeeze => exact ⟨squeezeRule, _, hzeros, rfl⟩
  | zeroRun => exact ⟨overwriteRule, _, hzeros, zeroRunIsOverwriteOfZeros F len e hpos⟩

theorem no_confidential_bits {f : Byte} (hreserved : reservedSet f = false) (hC : f.getLsbD 2 = false) :
    f &&& 0x24 = 0 := by
  revert f; decide +kernel

namespace Accepted

variable {i : Instr} {v : OpView} {s : State} {e o : Engine}

/-- Before the primitive of an operation that forces no permutation, only the two framing bytes of an opening call have
been written. -/
theorem start_outside_frame (h : Accepted i v s e o) (hforce : v.more = true ∨ v.flags.getLsbD 2 = false)
    (hfit : e.pos + (if v.more then 0 else 2) < e.rate) :
    o.pos = e.pos + (if v.more then 0 else 2) ∧
      ∀ a, (a < e.pos ∨ o.pos ≤ a) → Memory.read o.st a = Memory.read e.st a := by
  cases hmore : v.more with
  | true =>
    obtain rfl : o = e := h.start.trans (if_pos hmore)
    exact ⟨rfl, fun _ _ => rfl⟩
  | false =>
    have hC := no_confidential_bits (opView_not_reserved h.isOp) (hforce.resolve_left (hmore ▸ Bool.false_ne_true))
    obtain ⟨hpos, _, hread⟩ := h.start_inside hC hfit
    simp only [hmore, Bool.false_eq_true, if_false, true_and] at hpos hread ⊢
    refine ⟨hpos, fun a ha => ?_⟩
    rw [hread a, if_neg (by omega), if_neg (by omega)]
    exact BitVec.xor_zero.trans BitVec.xor_zero

/-- The primitive over bytes that end short of the boundary writes those bytes only. -/
theorem runPrim_outside (h : Accepted i v s e o) (hfit : o.pos + v.len < e.rate) {a : Nat}
    (ha : a < o.pos ∨ o.pos + v.len ≤ a) :
    Memory.read (o.runPrim (paramF s.params) v.flags v.len v.din).1.st a = Memory.read o.st a := by
  obtain ⟨_, _, hpos, _⟩ := h.start_window
  obtain ⟨r, ds, hlen, hwalk⟩ := runPrim_eq_walk (paramF s.params) v.flags v.len v.din hpos h.lengths
  obtain ⟨_, _, hread⟩ := h.walk_inside r hlen hfit
  rw [hwalk, hread a, if_neg (by omega)]

end Accepted

/-- Settles O16: the framing writes its two bytes and the primitive the bytes after them. -/
theorem operationsWriteOnlyUnderTheCursor : Obligations.OperationsWriteOnlyUnderTheCursor := by
  intro i v s t e e' hv h hengine hengine' hinv hforce hfit a ha
  obtain rfl | ⟨hcheck, _, hlen, rfl⟩ := operation_record hv h hengine hengine'
  · rfl
  · obtain ⟨_, hinit, hmore⟩ := Engine.precheck_eq_none_iff.mp hcheck
    have hacc : Accepted i v s e _ := ⟨hv, hengine, ⟨hinit, hinv⟩, hlen, hmore, rfl⟩
    obtain ⟨hpos, hread⟩ := hacc.start_outside_frame hforce (Nat.lt_of_add_right_lt hfit)
    rw [hacc.opResult_eq]
    rw [← hpos] at hfit ha
    exact (hacc.runPrim_outside hfit (by omega)).trans (hread a (by omega))

/-! ### Operations of length zero -/

/-- No primitive does anything over no bytes. -/
theorem runPrim_of_length_zero (F : Config.Block → Config.Block) (f : Byte) (e : Engine) :
    e.runPrim F f 0 [] = (e, []) := by
  rw [Engine.runPrim]
  cases primOf f <;> rfl

theorem completed_same_record {s : State} {k : Nat} {e : Engine} (h : s.engines[k]? = some e) (status : Status)
    (out : List Byte) : s.completed k e status out = s.responded status out := by
  rw [State.completed, set_same_engine h]
  rfl

/-- Settles O39: over no bytes the framing of an opening call is all there is. -/
theorem zeroLengthOperations : Obligations.ZeroLengthOperations := by
  intro i f k s e hengine hready
  have hacc : ∀ more, i.opView = some ⟨f, k, more, 0, []⟩ → (more = true → f = e.activeFlags) →
      Accepted i ⟨f, k, more, 0, []⟩ s e (if more then e else e.beginOp (paramF s.params) f) :=
    fun _ hv hmore => ⟨hv, hengine, hready, fun _ => rfl, hmore, rfl⟩
  have hfinal := final_of_nothing_produced f
  refine ⟨fun hv => (hacc false hv nofun).exec_eq (runPrim_of_length_zero _ _ _) hfinal, fun hv hflags => ?_⟩
  subst hflags
  rw [(hacc true hv fun _ => rfl).exec_eq (runPrim_of_length_zero _ _ _) hfinal]
  exact congrArg _ (completed_same_record hengine _ _)

end Sys2Proof.Proofs

/-! The flag byte (42_framing.md sections 2 and 5) and cleartext between two parties (42_framing.md section 6). -/

namespace Sys2Proof.Proofs

open Sys2Proof.Machine

/-! ### Dispatch -/

/-- The dispatch reads the low code alone (R131). -/
theorem primOf_congr {f g : Byte} (h : lowCode f = lowCode g) : primOf f = primOf g := by
  simp only [primOf, h]

/-- M is no bit of the low code (R61). -/
theorem lowCode_flipM (f : Byte) : lowCode (f ^^^ 0x10) = lowCode f := by
  revert f; decide +kernel

/-- Settles O33: the sixteen rows are the dispatch on the sixteen low codes, and it reads nothing else. -/
theorem dispatchFollowsTheTable : Obligations.DispatchFollowsTheTable := by
  refine ⟨by decide, fun flags => ⟨primOf_congr ?_, primOf_congr (lowCode_flipM flags), withheld_iff flags⟩⟩
  rw [lowCode, lowCode, BitVec.and_assoc, BitVec.and_self]

/-! ### Role adjustment -/

/-- The operation that decides the role is framed with I clear: a send as issued, a receive with I inverted (R125,
the spec's decision D9). -/
theorem framedFlags_of_deciding {f : Byte} (hT : f.getLsbD 3 = true) :
    (framedFlags f (decideRole f .undecided)).getLsbD 0 = false := by
  cases hI : f.getLsbD 0 with
  | false => rw [framedFlags_of_send hT hI]; exact hI
  | true => rw [framedFlags_of_receive hT hI, if_neg nofun, BitVec.getLsbD_xor, hI]; rfl

/-- The two flag bytes of a row of R178 have T and differ in I alone. -/
theorem transport_pairs : ∀ p ∈ [((0x08 : Byte), (0x09 : Byte)), (0x09, 0x08), (0x0A, 0x0B), (0x0B, 0x0A), (0x0C, 0x0D),
    (0x0D, 0x0C), (0x0E, 0x0F), (0x0F, 0x0E)],
    p.1.getLsbD 3 = true ∧ p.1 ^^^ 0x01 = p.2 ∧ (p.1 ||| 0x10).getLsbD 3 = true ∧
      (p.1 ||| 0x10) ^^^ 0x01 = p.2 ||| 0x10 := by
  intro p hp
  simp only [List.mem_cons, List.not_mem_nil, or_false] at hp
  obtain rfl | rfl | rfl | rfl | rfl | rfl | rfl | rfl := hp <;> decide

/-- Settles O34: the table of R178 is the inversion of I for a Responder, an operation without T is framed as issued,
and an Undecided engine takes its role by I. -/
theorem framedBytesByRole : Obligations.FramedBytesByRole := by
  refine ⟨fun p hp => ?_, fun flags hT => framedFlags_of_not_transport hT,
    fun flags hT => ⟨?_, framedFlags_of_deciding hT⟩⟩
  · obtain ⟨hT, hI, hT', hI'⟩ := transport_pairs p hp
    simp only [framedFlags_of_transport hT, framedFlags_of_transport hT', hI, hI']
    exact ⟨rfl, rfl, rfl, rfl⟩
  · rw [decideRole_eq, if_pos ⟨hT, rfl⟩]

/-! ### Cleartext -/

theorem absorb_sameDuplex (F : Config.Block → Config.Block) (ds : List Byte) {a b : Engine} (h : a.SameDuplex b) :
    (a.absorb F ds).SameDuplex (b.absorb F ds) :=
  (Engine.walk_sameDuplex F absorbRule ds h).1

/-- An operation whose primitive is `Absorb` completes with its input absorbed and nothing output. -/
theorem Accepted.exec_absorb {i : Instr} {v : OpView} {s : State} {e o : Engine} (h : Accepted i v s e o)
    (hprim : primOf v.flags = .absorb) :
    exec i s = .next (s.completed v.engine { o.absorb (paramF s.params) v.din with activeFlags := v.flags } .ok []) :=
  h.exec_eq (runPrim_absorb _ hprim _ _ _) (final_of_nothing_produced _)

/-- Settles O49: both framings absorb the same byte, and then both engines absorb the same input. -/
theorem cleartextKeepsTranscriptsEqual : Obligations.CleartextKeepsTranscriptsEqual := by
  intro s a b ea eb d send recv hpair hab ha hb hreadya hreadyb hsame hroles
  obtain ⟨f, g, hsend, hrecv, hf, hg, hff⟩ : ∃ f g : Byte, send.opView = some ⟨f, a, false, d.length, d⟩ ∧
      recv.opView = some ⟨g, b, false, d.length, d⟩ ∧ primOf f = .absorb ∧ primOf g = .absorb ∧
      framedFlags f (decideRole f ea.role) = framedFlags g (decideRole g eb.role) := by
    obtain heq | heq := List.mem_pair.mp hpair <;> cases heq
    · exact ⟨0x0A, 0x0B, rfl, rfl, rfl, rfl, framedFlags_of_rolesMatch rfl rfl hroles⟩
    · exact ⟨0x1A, 0x1B, rfl, rfl, rfl, rfl, framedFlags_of_rolesMatch rfl rfl hroles⟩
  have hacc : Accepted send _ s ea _ := ⟨hsend, ha, hreadya, fun _ => rfl, nofun, rfl⟩
  have hacc' : ∀ xa, Accepted recv _ (s.completed a xa .ok []) eb _ :=
    fun _ => ⟨hrecv, completed_other_engine hab hb, hreadyb, fun _ => rfl, nofun, rfl⟩
  exact ⟨_, _, hacc.exec_absorb hf, (hacc' _).exec_absorb hg,
    absorb_sameDuplex _ d (beginOp_sameDuplex (paramF s.params) hff hsame)⟩

end Sys2Proof.Proofs

/-! INIT, CLONE, RESET and the hardware reset input (40_sponge_adapter.md section 3, 43_operations.md section 5,
70_reset_and_hazards.md section 1). -/

namespace Sys2Proof.Proofs

open Sys2Proof.Machine

/-! ### Reset -/

/-- A record that holds the reset value of every field (R34, R220). -/
theorem engineReset_values : Engine.reset.securityLevel = .unset ∧ (∀ a, Memory.read Engine.reset.st a = 0) ∧
    Engine.reset.rate = 0 ∧ Engine.reset.pos = 0 ∧ Engine.reset.posBegin = 0 ∧ Engine.reset.role = .undecided ∧
    Engine.reset.activeFlags = 0x00 ∧ Engine.reset.padMode = .plain ∧ Engine.reset.initialized = false :=
  ⟨rfl, Memory.read_nil, rfl, rfl, rfl, rfl, rfl, rfl, rfl⟩

/-- Settles O8: every engine of both machines is `Engine.reset`. -/
theorem resetLeavesTheSpecifiedValues : Obligations.ResetLeavesTheSpecifiedValues := by
  refine fun s => ⟨List.length_map _, fun e he => ?_⟩
  obtain rfl : e = Engine.reset := by
    obtain he | he := List.mem_append.mp he
    · simpa [State.reset] using he
    · obtain ⟨_, _, rfl⟩ := List.mem_map.mp he
      rfl
  exact engineReset_values

/-- Settles O56: RESET writes `Engine.reset`. -/
theorem resetCommandClearsTheEngine : Obligations.ResetCommandClearsTheEngine := by
  intro s t ht
  have hhard : s.hardwareReset.engines[t]? = some Engine.reset := by
    rw [State.hardwareReset_engines, List.getElem?_map, List.getElem?_eq_getElem ht]
    rfl
  have hword : makeWord 3 false 0 = 0x0600 := by decide
  exact ⟨hword, Engine.reset, if_pos ht, hhard, List.mem_cons_self, engineReset_values⟩

/-! ### CLONE -/

/-- Settles O57: CLONE runs under the four conditions and is refused without any one of them. -/
theorem cloneCopiesEveryField : Obligations.CloneCopiesEveryField := by
  intro s src dst
  constructor
  · intro e hsrc hdst hne hinit
    have htwo : 2 ≤ s.engines.length := by
      have := (List.getElem?_eq_some_iff.mp hsrc).1
      omega
    refine ⟨_, ?_, rfl, List.getElem?_set_self hdst, completed_other_engine hne.symm hsrc⟩
    simp only [exec, execClone, hsrc]
    exact if_pos ⟨htwo, hdst, hne, hinit⟩
  · intro hbad
    obtain ⟨e, hsrc, htwo, hdst, hne, hinit, _⟩ | hrefused := execClone_next (s := s) (src := src) (dst := dst)
    · have hlt := (List.getElem?_eq_some_iff.mp hsrc).1
      obtain h | h | h | h | ⟨e', hsrc', hinit'⟩ := hbad
      · exact absurd h htwo.not_gt
      · exact absurd h hlt.not_ge
      · exact absurd h hdst.not_ge
      · exact absurd h hne
      · obtain rfl := Option.some.inj (hsrc.symm.trans hsrc')
        cases hinit.symm.trans hinit'
    · exact hrefused

/-! ### INIT -/

/-- An INIT with one of the two levels that gives a next state ran. -/
theorem exec_init_next {s x : State} {t len : Nat} {sec : BitVec 16} {level : Level} {label : List Byte}
    (hlevel : Level.ofSec sec = some level) (h : exec (.init t sec len label) s = .next x) :
    t < s.engines.length ∧
      x = s.completed t (initEngine (paramF s.params) s.params.separator level label) .ok [] := by
  obtain ⟨ht, ⟨hnone, _⟩ | ⟨level', hlevel', _, hx⟩⟩ := execInit_next h
  · cases hnone.symm.trans hlevel
  · obtain rfl := Option.some.inj (hlevel.symm.trans hlevel')
    exact ⟨ht, hx⟩

/-- Settles O54: the record INIT leaves is a function of the operands and the parameters. -/
theorem initForgetsTheOldLifetime : Obligations.InitForgetsTheOldLifetime := by
  intro s s' x x' t len sec label hsec hparams h h'
  obtain ⟨level, hlevel⟩ := exists_level_ofSec hsec
  obtain ⟨ht, rfl⟩ := exec_init_next hlevel h
  obtain ⟨ht', rfl⟩ := exec_init_next hlevel h'
  have hx := List.getElem?_set_self (a := initEngine (paramF s.params) s.params.separator level label) ht
  have hx' := List.getElem?_set_self (a := initEngine (paramF s'.params) s'.params.separator level label) ht'
  rw [hparams] at hx'
  rw [State.completed_engines, State.completed_engines, hx, hparams, hx']
  exact ⟨rfl, rfl⟩

/-- The buffer that INIT hands to the permutation is the header followed by zeros, in plain mode and whole within the
first window (R89 to R91). -/
theorem labelStart_read (F : Config.Block → Config.Block) {separator : List Byte} (hsep : separator.length ≤ 31)
    (level : Level) : ∃ header : Config.Block,
      (∀ (a : Nat) (h : a < 200), header[a] = (initHeader separator (Level.initialRate level)).getD a 0) ∧
      ∀ (a : Nat) (h : a < 200), Memory.read (labelStart F separator level).st a = (F header)[a] := by
  have hlen : (initHeader separator (initClear level).rate).length = separator.length + 6 := rfl
  have hrate : 136 ≤ (initClear level).rate ∧ (initClear level).rate ≤ stateBytes := by cases level <;> decide
  have hfit : (initClear level).pos + (initHeader separator (initClear level).rate).length <
      (initClear level).rate := by
    rw [show (initClear level).pos = 0 from rfl, hlen]
    omega
  obtain ⟨m, hwalk, _, hread, _⟩ := Engine.walk_inside F absorbRule _ (e := initClear level) rfl hfit hrate.2
  obtain ⟨header, hheader, hst, _⟩ :=
    runF_effect F ((initClear level).absorb F (initHeader separator (initClear level).rate))
  have hmode : ((initClear level).absorb F (initHeader separator (initClear level).rate)).padMode = .plain :=
    congrArg Engine.padMode hwalk
  have hpos : ((initClear level).absorb F (initHeader separator (initClear level).rate)).pos ≠ 0 := by
    rw [Engine.absorb, hwalk]
    exact Nat.succ_ne_zero _
  refine ⟨header, fun a ha => ?_, fun a ha => ?_⟩
  · have hbyte := (hread a).trans (absorbed_byte 0 (initHeader separator (initClear level).rate) 0 a)
    rw [if_pos (Nat.zero_le a)] at hbyte
    rw [hheader a ha, portBlock_plain hmode, Engine.absorb, hwalk]
    exact hbyte.trans BitVec.zero_xor
  · have hflush : initAbsorbHeader F separator (initClear level) =
        ((initClear level).absorb F (initHeader separator (initClear level).rate)).runF F := if_neg hpos
    rw [labelStart, Engine.initSwitch_st, hflush, hst a ha]

/-- The opening of the label operation is the two framing bytes alone: its flag byte has neither C nor T (R93, R126). -/
theorem openOp_initFlags (F : Config.Block → Config.Block) (e : Engine) :
    e.openOp F initFlags = (Engine.walk F absorbRule [BitVec.ofNat 8 e.posBegin, initFlags]
      { e with posBegin := e.pos + 1, activeFlags := initFlags }).1 := by
  have hnegotiate : e.negotiate initFlags = e := by
    rw [Engine.negotiate, decideRole_eq, if_neg fun h => absurd h.1 (by decide)]
  rw [Engine.openOp, Engine.beginOp_of_not_confidential F initFlags e (by decide), hnegotiate,
    framedFlags_of_not_transport (by decide), Engine.frameBytes_eq]
  exact (congrArg Prod.fst (Engine.walk_activeFlags F absorbRule _ { e with posBegin := e.pos + 1 } initFlags)).symm

/-- The record into which INIT absorbs the framing bytes of the label operation and then the label. -/
def framingStart (F : Config.Block → Config.Block) (separator : List Byte) (level : Level) : Engine :=
  { securityLevel := level, st := (labelStart F separator level).st, rate := Level.initialRate level - 2, pos := 0,
    posBegin := 1, role := .undecided, activeFlags := initFlags, padMode := .padded, initialized := true }

/-- The label of INIT is absorbed behind two framing bytes, the previous operation start 0 and the flag byte of metaAD
(R93). -/
theorem initEngine_eq_walk (F : Config.Block → Config.Block) (separator : List Byte) (level : Level)
    (label : List Byte) : initEngine F separator level label =
      (Engine.walk F absorbRule ([0x00, initFlags] ++ label) (framingStart F separator level)).1 := by
  have hopen : (labelStart F separator level).openOp F initFlags =
      (Engine.walk F absorbRule [0x00, initFlags] (framingStart F separator level)).1 := by
    rw [openOp_initFlags, labelStart_eq]
    rfl
  rw [Engine.walk_append, initEngine, ← labelStart, hopen]
  rfl

/-- Of the two framing bytes only the flag byte, at index 1, is not zero; the label follows from index 2 on. -/
theorem framed_label_byte (b : Byte) (label : List Byte) (a : Nat) :
    b ^^^ ([0x00, initFlags] ++ label).getD a 0 =
      b ^^^ (if a = 1 then 0x12 else 0) ^^^ (if 2 ≤ a then label.getD (a - 2) 0 else 0) := by
  match a with
  | 0 => simp
  | 1 => simp [initFlags]
  | a + 2 => simp

theorem initialRate_window (level : Level) :
    0 < Level.initialRate level - 2 ∧ Level.initialRate level - 2 ≤ stateBytes := by
  cases level <;> decide

theorem framed_label_length (label : List Byte) : ([0x00, initFlags] ++ label).length = 2 + label.length := by
  rw [List.length_append]
  rfl

/-- What INIT leaves in the record, but for the buffer (R94): the cursor stands behind the framed label. -/
theorem initEngine_values (F : Config.Block → Config.Block) (separator : List Byte) (level : Level)
    (label : List Byte) {e : Engine} (he : e = initEngine F separator level label) :
    e.securityLevel = level ∧ e.rate = Level.initialRate level - 2 ∧ e.role = .undecided ∧ e.activeFlags = 0x12 ∧
      e.padMode = .padded ∧ e.initialized = true ∧ e.pos = (2 + label.length) % e.rate ∧
      e.posBegin = if 2 + label.length < e.rate then 1 else 0 := by
  obtain ⟨hlevel, hrate, hrole, hflags, hpad, hinit⟩ := Engine.walk_sameFrame F absorbRule ([0x00, initFlags] ++ label)
    (framingStart F separator level)
  obtain ⟨hpos, hbegin⟩ := Engine.walk_cursor F absorbRule ([0x00, initFlags] ++ label)
    (e := framingStart F separator level) (initialRate_window level).1
  rw [← initEngine_eq_walk, ← he] at hlevel hrate hrole hflags hpad hinit hpos hbegin
  have hstart : (framingStart F separator level).pos = 0 := rfl
  rw [← hrate, framed_label_length, hstart, Nat.zero_add] at hpos hbegin
  exact ⟨hlevel, hrate, hrole, hflags, hpad, hinit, hpos, hbegin⟩

/-- What INIT leaves in the buffer for a label that fits the block (R94). -/
theorem read_initEngine (F : Config.Block → Config.Block) (separator : List Byte) (level : Level) {label : List Byte}
    (hfit : 2 + label.length < Level.initialRate level - 2) (a : Nat) :
    Memory.read (initEngine F separator level label).st a = Memory.read (labelStart F separator level).st a ^^^
      (if a = 1 then 0x12 else 0) ^^^ (if 2 ≤ a then label.getD (a - 2) 0 else 0) := by
  have hinside : 0 + ([0x00, initFlags] ++ label).length < Level.initialRate level - 2 := by
    rwa [framed_label_length, Nat.zero_add]
  obtain ⟨m, hwalk, _, hread, _⟩ := Engine.walk_inside F absorbRule ([0x00, initFlags] ++ label)
    (e := framingStart F separator level) (labelStart_wf F separator level) hinside (initialRate_window level).2
  have hbyte := (hread a).trans (absorbed_byte _ _ 0 a)
  rw [if_pos (Nat.zero_le a)] at hbyte
  rw [initEngine_eq_walk, hwalk]
  exact hbyte.trans (framed_label_byte _ label a)

/-- What a level says of its operand: its name and the rate it starts with (R6). -/
theorem level_of_sec {sec : BitVec 16} (h : sec = 128 ∨ sec = 256) :
    ∃ level, Level.ofSec sec = some level ∧ level = (if sec = 128 then .bits128 else .bits256) ∧
      Level.initialRate level = 200 - sec.toNat / 4 := by
  obtain rfl | rfl := h
  · exact ⟨.bits128, rfl, rfl, rfl⟩
  · exact ⟨.bits256, rfl, rfl, rfl⟩

/-- Settles O53: INIT is the walk over the framed label from the record that the header's permutation leaves. -/
theorem initGivesTheInitialState : Obligations.InitGivesTheInitialState := by
  intro s t sec label ht hsec hsep
  obtain ⟨level, hlevel, hname, hsecRate⟩ := level_of_sec hsec
  obtain ⟨header, hheader, hstart⟩ := labelStart_read (paramF s.params) hsep level
  obtain ⟨hlev, hrate, hrole, hflags, hpad, hinit, hpos, hbegin⟩ :=
    initEngine_values (paramF s.params) s.params.separator level label rfl
  refine ⟨_, header, _, exec_init_runs ht hlevel label, ?_, rfl, hlev.trans hname, ?_, hrole, hflags, hpad, hinit, hpos,
    hbegin, fun hfit a ha => ?_⟩
  · rw [← hsecRate]
    exact hheader
  · rw [hrate, hsecRate]
    omega
  · rw [read_initEngine _ _ _ (hrate ▸ hfit), hstart a ha]

end Sys2Proof.Proofs
